-- ==== Sys2Proof/Word.lean ====
section
/-!
DEFINITION. The words, lines, levels and leaf primitives of the transceiver's boundary (spec 00_scope.md
R8, R9; 20_memory.md R33, R34; 30_encoding.md R57). Nothing here computes: these are the names the rules use.
-/

namespace Sys2Proof

/-- A word of the host interface, `u16` (R6 `HOST_WORD_BITS`). -/
abbrev HostWord := BitVec 16

/-- The 9-bit command word of the wire, `CMD9` (R6 `CMD_BITS`, R49). -/
abbrev CmdWord := BitVec 9

/-- The 16-bit data word of the wire, `DATA16` (R6 `DATA_BITS`, R50). -/
abbrev DataWord := BitVec 16

/-- The 7-bit register address `cmd[6:0]` (R6 `ADDR_BITS`, R53). -/
abbrev RegAddr := BitVec 7

/-- A logical level of a line (R8). -/
inductive Level where
  | low
  | high
deriving DecidableEq, Repr, Inhabited

/-- A direction of a line: `out` where the transceiver drives it, `inp` where it does not (R8 `Out`, `In`). -/
inductive Dir where
  | out
  | inp
deriving DecidableEq, Repr, Inhabited

/-- The four lines `CLK`, `DATA`, `EN_N`, `RST_N` (R8, R34). -/
inductive Line where
  | clk
  | data
  | enN
  | rstN
deriving DecidableEq, Repr, Inhabited

/-- The names of the five leaf primitives, as a leaf failure reports them (R9, R97). -/
inductive PrimName where
  | cfgFast
  | setDir
  | drive
  | sample
  | delay
deriving DecidableEq, Repr

/-- A leaf primitive with its arguments: the only way the transceiver touches the world (R9). -/
inductive Prim where
  | cfgFast (l : Line)
  | setDir (l : Line) (d : Dir)
  | drive (l : Line) (v : Level)
  | sample (l : Line)
  | delay
deriving DecidableEq, Repr

/-- The three requests of the host. They are abstract: no rule gives them a bit pattern (R57, R63, decision D2). -/
inductive Request where
  | init
  | transfer (words : List HostWord)
  | transferSegments (segs : List (List HostWord))
deriving DecidableEq, Repr

end Sys2Proof
end

