-- ==== Sys2Proof/Config.lean ====
section
/-!
DEFINITION. What is fixed for this hardware (00_scope.md R6) and the free values: opaque constants, without a
body, for everything the spec gives to the environment or the platform or leaves without a value
(10_state.md R18, 42_exchange.md R82, 60_exceptions.md R97, 93_implementation_defined.md U1, U5, U10, U13, U14).
-/

namespace Sys2Proof

/-- What the platform may do with one leaf primitive: perform it, report that it could not (R97), or never
return (R114, U16). -/
inductive PlatformAnswer where
  | completes
  | fails
  | hangs
deriving DecidableEq, Repr, Inhabited

/-- The parameter record of R6, one field per row of its table, but for `T_PULSE_MIN` (`Config.tPulseMin`). -/
structure Params where
  cmdBits : Nat
  rsvdBits : Nat
  dirBit : Nat
  addrBits : Nat
  dataBits : Nat
  hostWordBits : Nat
  wordsPerTransfer : Nat
  segmentsPerCall : Nat
  prePulses : Nat
  turnPulses : Nat
  postPulses : Nat
  settleDelays : Nat
  enActive : Level
  rstActive : Level
  clkIdle : Level
  lines : Nat
  delayNops : Nat
deriving DecidableEq, Repr

/-- The values this hardware takes (R6). -/
abbrev Config.params : Params where
  cmdBits := 9
  rsvdBits := 1
  dirBit := 7
  addrBits := 7
  dataBits := 16
  hostWordBits := 16
  wordsPerTransfer := 2
  segmentsPerCall := 1
  prePulses := 2
  turnPulses := 1
  postPulses := 1
  settleDelays := 1
  enActive := .low
  rstActive := .low
  clkIdle := .low
  lines := 4
  delayNops := 2

/-- `T_PULSE_MIN` less one unit: OPEN (R6, decision D15). -/
opaque Config.tPulseMinLessOne : Nat

/-- `T_PULSE_MIN`, a duration above zero in an unnamed unit: OPEN, and read by no rule (R6, R138, U7). -/
def Config.tPulseMin : Nat := Config.tPulseMinLessOne + 1

/-- What the platform does with the leaf primitive that is the `n`-th one tried: its own choice, under no law
(R97, U14). -/
opaque Config.platformAnswer : Nat → PlatformAnswer

/-- What the environment answers to the `n`-th `sample`: a draw (R82, decision D6, U5). -/
opaque Config.sampleLevel : Nat → Level

/-- The level of a pin the transceiver does not drive (R18, U17). -/
opaque Config.undrivenPin : Line → Nat → Level

/-- The level that a latch without a value shows when it is read (R18, U1, U10, U11). -/
opaque Config.unspecLatch : Line → Nat → Level

/-- A 9-bit transaction register without a value, read all the same (U13). -/
opaque Config.unspecCmd : Nat → CmdWord

/-- A 16-bit transaction register without a value, read all the same (U13). -/
opaque Config.unspecData : Nat → DataWord

/-- A direction flag without a value, read all the same (U13). -/
opaque Config.unspecDirection : Nat → Bool

/-- A sequencer position without a value, read all the same (U13). -/
opaque Config.unspecSeq : Nat → Nat

end Sys2Proof
end

