-- ==== Sys2Proof/Syntax.lean ====
section
/-!
DEFINITION. The operations of the transceiver, one constructor per row of spec/opcode_table.json
(00_scope.md R2, 30_encoding.md R58). The word "instruction" of this package is the spec's "operation".
-/

namespace Sys2Proof

/-- One operation. The first seven are host requests or the kinds a request resolves to (R57); the two
sub-protocols and the eight micro-operations run only inside TRANSFER (42_exchange.md). -/
inductive Instr where
  /-- XFER.W (R71): reserved bit `r`, address `a`, data word `v`. -/
  | xferW (r : BitVec 1) (a : RegAddr) (v : DataWord)
  /-- XFER.R (R72): reserved bit `r`, address `a`, data word `v` (conventionally zero, not checked). -/
  | xferR (r : BitVec 1) (a : RegAddr) (v : DataWord)
  /-- INIT (R64). -/
  | init
  /-- TRANSFER (R68): a word list of any length. -/
  | transfer (words : List HostWord)
  /-- NOP.T (R70): a TRANSFER whose word count is not 2. -/
  | nopT (words : List HostWord)
  /-- TRANSFER_SEGMENTS (R93): a list of segments. -/
  | transferSegments (segs : List (List HostWord))
  /-- NOP.S (R94): a TRANSFER_SEGMENTS whose segment count is not 1. -/
  | nopS (segs : List (List HostWord))
  /-- EXCHANGE_WORD (R84): bits `n-1 .. 0` of `value`; `n` is 9 or 16 (R92). -/
  | exchangeWord (value : BitVec 16) (n : Nat)
  /-- EXCHANGE_BIT (R83). -/
  | exchangeBit (b : Bool)
  /-- CLOCK_PULSE (R80). -/
  | clockPulse
  /-- SETTLE (R79). -/
  | settle
  /-- DATA_OUT (R81). -/
  | dataOut (b : Bool)
  /-- DATA_IN (R82). -/
  | dataIn
  /-- SELECT (R85). -/
  | select
  /-- UNSELECT (R86). -/
  | unselect
  /-- DIR_IN (R87). -/
  | dirIn
  /-- DIR_OUT (R88). -/
  | dirOut
deriving DecidableEq, Repr

end Sys2Proof
end

