-- ==== Sys2Proof/WellFormed.lean ====
section
/-!
DEFINITION. Which operation terms the spec's operand descriptions admit (opcode table `selector` texts;
30_encoding.md R57; 42_exchange.md R92).
-/

namespace Sys2Proof

/-- A term is well formed when its operands have the shape its row of the table names. Every value of every
bit field is legal (R59), so only the counts are checked. -/
def Instr.wf : Instr → Bool
  | .xferW _ _ _ => true
  | .xferR _ _ _ => true
  | .init => true
  | .transfer _ => true
  | .nopT words => words.length != Config.params.wordsPerTransfer
  | .transferSegments segs => segs.length == Config.params.segmentsPerCall
  | .nopS segs => segs.length != Config.params.segmentsPerCall
  | .exchangeWord _ n => n == Config.params.cmdBits || n == Config.params.dataBits
  | .exchangeBit _ => true
  | .clockPulse => true
  | .settle => true
  | .dataOut _ => true
  | .dataIn => true
  | .select => true
  | .unselect => true
  | .dirIn => true
  | .dirOut => true

end Sys2Proof
end

