-- ==== Sys2Proof/Decode.lean ====
section
/-!
DEFINITION. From a host request to the operation it selects, and back (30_encoding.md R49 to R60, R63). The
only bits ever decoded are those of the command word; the requests themselves are abstract, so the decoder reads
a `Request`, not bytes (R36: "nothing is a byte"). It is total and rejects nothing, because every command and
data value is legal and a call of the wrong shape selects a no-op (R59).
-/

namespace Sys2Proof

/-- The command field of a host word: bits `[15:9]` are dropped (R55, decision D10). -/
def cmdField (w : HostWord) : CmdWord := w.setWidth 9

/-- The reserved bit `cmd[8]` (R49, R54). -/
def reservedBit (c : CmdWord) : BitVec 1 := c.extractLsb' 8 1

/-- The direction bit `cmd[7]`, `true` for a read: the only field the transceiver decodes (R52, conflict C1). -/
def directionBit (c : CmdWord) : Bool := c.getLsbD Config.params.dirBit

/-- The address field `cmd[6:0]` (R53). -/
def addrField (c : CmdWord) : RegAddr := c.extractLsb' 0 7

/-- The command word of the three fields, `r ++ d ++ a` (R49). -/
def commandWord (r : BitVec 1) (d : Bool) (a : RegAddr) : CmdWord := r ++ (BitVec.ofBool d ++ a)

/-- R58 step (4), R52: the transaction kind that a word list of length 2 selects. -/
def decodeFrame (w0 w1 : HostWord) : Instr :=
  let c := cmdField w0
  if directionBit c then .xferR (reservedBit c) (addrField c) w1
  else .xferW (reservedBit c) (addrField c) w1

/-- R58 steps (3) and (4): a word list of length 2 is a transaction, any other a NOP.T. -/
def decodeWords : List HostWord → Instr
  | [w0, w1] => decodeFrame w0 w1
  | words => .nopT words

/-- R58 steps (2) to (4): one segment is a TRANSFER of it, any other count a NOP.S. -/
def decodeSegments : List (List HostWord) → Instr
  | [words] => decodeWords words
  | segs => .nopS segs

/-- R58 step (1): the operation named by the request. -/
def requestInstr : Request → Instr
  | .init => .init
  | .transfer words => .transfer words
  | .transferSegments segs => .transferSegments segs

/-- The kind that a TRANSFER or TRANSFER_SEGMENTS resolves to (R57); every other operation is its own kind. -/
def resolve : Instr → Instr
  | .transfer words => decodeWords words
  | .transferSegments segs => decodeSegments segs
  | .xferW r a v => .xferW r a v
  | .xferR r a v => .xferR r a v
  | .init => .init
  | .nopT words => .nopT words
  | .nopS segs => .nopS segs
  | .exchangeWord value n => .exchangeWord value n
  | .exchangeBit b => .exchangeBit b
  | .clockPulse => .clockPulse
  | .settle => .settle
  | .dataOut b => .dataOut b
  | .dataIn => .dataIn
  | .select => .select
  | .unselect => .unselect
  | .dirIn => .dirIn
  | .dirOut => .dirOut

/-- The whole decode tree of R58. -/
def decode (q : Request) : Instr := resolve (requestInstr q)

/-- The request that selects an operation (R57, R61); none for the sub-protocols and micro-operations, which
no host can request (42_exchange.md). -/
def encode : Instr → Option Request
  | .xferW r a v => some (.transfer [(commandWord r false a).setWidth 16, v])
  | .xferR r a v => some (.transfer [(commandWord r true a).setWidth 16, v])
  | .init => some .init
  | .transfer words => some (.transfer words)
  | .nopT words => some (.transfer words)
  | .transferSegments segs => some (.transferSegments segs)
  | .nopS segs => some (.transferSegments segs)
  | .exchangeWord _ _ => none
  | .exchangeBit _ => none
  | .clockPulse => none
  | .settle => none
  | .dataOut _ => none
  | .dataIn => none
  | .select => none
  | .unselect => none
  | .dirIn => none
  | .dirOut => none

/-- The 25 bits of a transaction in wire order as one number, `FRAME25 = cmd ++ data` (R51). -/
def frame25 (c : CmdWord) (v : DataWord) : BitVec 25 := c ++ v

/-- The request whose words a table row's bits are: the command word is bits 15..0, the data word bits 31..16
(the words as the host lists them, R37). -/
def tableRequest (nbits w : Nat) : Request :=
  let bits := w % 2 ^ nbits
  .transfer [BitVec.ofNat 16 bits, BitVec.ofNat 16 (bits / 2 ^ 16)]

/-- The operation the decoder reads from table bits `w`. A row without a bit pattern (R63) has no word to
ask about; a count that leaves out the direction bit, or is above the two words, is no frame. -/
def decodeTableWord (nbits w : Nat) : Option Instr :=
  if Config.params.dirBit < nbits ∧ nbits ≤ 2 * Config.params.hostWordBits then some (decode (tableRequest nbits w))
  else none

end Sys2Proof
end

