-- ==== Sys2Proof/Machine/State.lean ====
section
/-!
DEFINITION. The state of the transceiver (10_state.md), as plain data, with the two reasons a step can stop and
the state at power-on. Fields of the spec's record R13 come first; the model's own fields (the response log, the
host's calls still to come, the platform's and the environment's answers still to come) are marked so.
-/

namespace Sys2Proof.Machine

/-- The contents of a field that the spec gives "a value or `unspec`" (R8, R13, R30). `unspec` is the spec's own
content of the field, not a missing one: reading it is no fault and yields a free value. -/
inductive Reg (α : Type) where
  | unspec
  | holds (v : α)
deriving DecidableEq, Repr

/-- One thing per line (R13 `S.lat[L]`, `S.dir[L]`, `S.cfg[L]`). -/
structure Lines (α : Type) where
  clk : α
  data : α
  enN : α
  rstN : α
deriving DecidableEq, Repr

/-- The line-state registers: output latches (R15), directions (R16), fast-mode flags (R17). -/
structure LineRegs where
  lat : Lines (Reg Level)
  dir : Lines (Reg Dir)
  cfg : Lines Bool
deriving DecidableEq, Repr

/-- The transaction registers (R21 to R24). -/
structure TxnRegs where
  /-- `S.tx_cmd` (R21). -/
  txCmd : Reg CmdWord
  /-- `S.tx_data` (R21). -/
  txData : Reg DataWord
  /-- `S.rx_cmd` (R22). -/
  rxCmd : Reg CmdWord
  /-- `S.rx_data` (R22). -/
  rxData : Reg DataWord
  /-- `S.direction_read` (R23). -/
  directionRead : Reg Bool
  /-- `S.seq`, the index of the next leaf primitive (R24). -/
  seq : Reg Nat
deriving DecidableEq, Repr

/-- The request in progress, which names the primitive list that `S.seq` indexes (R24). -/
inductive Job where
  | init
  | transfer
deriving DecidableEq, Repr

/-- `S.mode` (R14). `Busy` carries which request is in progress. -/
inductive Mode where
  | uninit
  | ready
  | busy (job : Job)
  | faulted
deriving DecidableEq, Repr

/-- An event of the history (R9, R27). -/
inductive Event where
  | cfg (l : Line)
  | setDir (l : Line) (d : Dir)
  | drive (l : Line) (v : Level)
  | sample (l : Line) (v : Level)
  | delay
deriving DecidableEq, Repr

/-- `LeafIOFailure(p, L)`: the failing primitive and its line, none for `delay` (R97, R98). -/
structure LeafFailure where
  prim : PrimName
  line : Option Line
deriving DecidableEq, Repr

/-- The answer to one request (R25). -/
inductive Response where
  /-- INIT completed. -/
  | done
  /-- A well-shaped TRANSFER completed: `command_echo` and `data_result`. -/
  | words (commandEcho dataResult : HostWord)
  /-- A TRANSFER of the wrong shape: the caller's words, unchanged. -/
  | ignored (words : List HostWord)
  /-- A TRANSFER_SEGMENTS of the wrong shape: the caller's segments, unchanged. -/
  | ignoredSegments (segs : List (List HostWord))
  /-- A leaf primitive failed. -/
  | fault (f : LeafFailure)
deriving DecidableEq, Repr

/-- When the host issues a call: after the one before it is answered, as the serialisation duty of R123 has it,
or at once, which breaks that duty where a request is in progress. -/
inductive Timing where
  | serialised
  | overlapping
deriving DecidableEq, Repr

/-- A call the host is going to make. -/
structure HostCall where
  request : Request
  timing : Timing
deriving DecidableEq, Repr

/-- The machine. -/
structure State where
  /-- `S.mode` (R14). -/
  mode : Mode
  /-- `S.lat`, `S.dir`, `S.cfg` (R15 to R17). -/
  lines : LineRegs
  /-- `S.tx_cmd` to `S.seq` (R21 to R24). -/
  txn : TxnRegs
  /-- `S.hist`, oldest first (R27). -/
  hist : List Event
  /-- Model's own: the responses delivered to the host, oldest first (R25, R11). -/
  responses : List Response
  /-- Model's own: the calls the host is still going to make, next first (R7, decision D2). -/
  inbox : List HostCall
  /-- Model's own: what the platform does with the next leaf primitives; past its end it is free (R97). -/
  platform : List PlatformAnswer
  /-- Model's own: what the environment answers to the next samples; past its end it is free (R82). -/
  samples : List Level
  /-- Model's own: leaf primitives tried since power-on, the index of the platform's free values. -/
  leafDraws : Nat
  /-- Model's own: samples answered since power-on, the index of the environment's free values. -/
  sampleDraws : Nat
deriving DecidableEq, Repr

/-- The same thing for all four lines. -/
def Lines.all {α : Type} (v : α) : Lines α where
  clk := v
  data := v
  enN := v
  rstN := v

/-- Line registers at power-on (R30): nothing driven, no direction, no fast mode. -/
def LineRegs.powerOn : LineRegs where
  lat := Lines.all .unspec
  dir := Lines.all .unspec
  cfg := Lines.all false

/-- The transaction registers outside mode `Busy` (R30, decision D28). -/
def TxnRegs.unspec : TxnRegs where
  txCmd := .unspec
  txData := .unspec
  rxCmd := .unspec
  rxData := .unspec
  directionRead := .unspec
  seq := .unspec

/-- Why the machine can come to a stop that no later step leaves. -/
inductive Fault where
  /-- Raised by the one operation that runs a leaf primitive, where the platform never returns from it (R114,
  U16 `stuck`). Safe: the spec gives nothing that happens after it. -/
  | leafNeverReturns (prim : PrimName) (line : Option Line)
deriving DecidableEq, Repr

/-- Why a request has no meaning: the edges of the specification (R115). -/
inductive Refusal where
  /-- Raised by an arm of `exec` for an operation without a meaning in this model; no arm raises it. Safe. -/
  | notModelled (mnemonic : String)
  /-- Raised by every request that arrives in mode `Busy` (R115(a), D5). Safe: nothing is claimed of such a run. -/
  | requestWhileBusy
  /-- Raised by a TRANSFER of two words in mode `Uninit` (R115(b), D4). Safe. -/
  | transferBeforeInit
  /-- Raised by a TRANSFER of two words in mode `Faulted` (R115(b), D4). Safe. -/
  | transferAfterFault
deriving DecidableEq, Repr

/-- The state at power-on (R30): the transceiver has no reset of its own (R117), and does nothing until a request
arrives. No call, platform answer or sample answer is scripted. -/
def State.reset : State where
  mode := .uninit
  lines := .powerOn
  txn := .unspec
  hist := []
  responses := []
  inbox := []
  platform := []
  samples := []
  leafDraws := 0
  sampleDraws := 0

end Sys2Proof.Machine
end

