-- ==== Sys2Proof/Machine/Operands.lean ====
section
/-!
DEFINITION. Operand forms: bits and levels (R8, D27), fields with or without a value (R8 `unspec`), the
accumulators' shift (R22, R84), the host words of a result (R56), and which event a primitive records (R9).
-/

namespace Sys2Proof.Machine

/-- `lvl(b)` (R8, D27). -/
def lvl : Bool → Level
  | false => .low
  | true => .high

/-- `bit(l)` (R8, D27). -/
def bitOf : Level → Bool
  | .low => false
  | .high => true

/-- The contents of a field, or the free value `free` where it is `unspec`. -/
def Reg.read {α : Type} (free : α) : Reg α → α
  | .unspec => free
  | .holds v => v

/-- A change of a field's value; a field without a value stays without one. -/
def Reg.update {α : Type} (f : α → α) : Reg α → Reg α
  | .unspec => .unspec
  | .holds v => .holds (f v)

/-- One accumulator step of EXCHANGE_WORD, `(acc << 1) | b` (R84). The accumulator is exactly as wide as the word,
so the final mask of R84 changes nothing (R84 corner (b), R89). -/
def shiftIn {n : Nat} (b : Bool) (acc : BitVec n) : BitVec n := (acc <<< 1) ||| (BitVec.ofBool b).setWidth n

/-- `command_echo = zext_16(rx_cmd)` (R56). -/
def echoWord (c : CmdWord) : HostWord := c.setWidth 16

end Sys2Proof.Machine

namespace Sys2Proof

/-- The other level: the inactive level of an active one (R64). -/
def Level.flip : Level → Level
  | .low => .high
  | .high => .low

/-- The name of a primitive (R9). -/
def Prim.name : Prim → PrimName
  | .cfgFast _ => .cfgFast
  | .setDir _ _ => .setDir
  | .drive _ _ => .drive
  | .sample _ => .sample
  | .delay => .delay

/-- The line a primitive acts on, none for `delay` (R97). -/
def Prim.line : Prim → Option Line
  | .cfgFast l => some l
  | .setDir l _ => some l
  | .drive l _ => some l
  | .sample l => some l
  | .delay => none

/-- The event a primitive records; `v` is the level a sample returned (R9). -/
def Prim.event (v : Level) : Prim → Machine.Event
  | .cfgFast l => .cfg l
  | .setDir l d => .setDir l d
  | .drive l w => .drive l w
  | .sample l => .sample l v
  | .delay => .delay

/-- Whether a primitive is a sample, and so uses up one answer of the environment. -/
def Prim.isSample : Prim → Bool
  | .sample _ => true
  | .cfgFast _ => false
  | .setDir _ _ => false
  | .drive _ _ => false
  | .delay => false

end Sys2Proof
end

