-- ==== Sys2Proof/Machine/Ops.lean ====
section
/-!
DEFINITION. The named operations on the state: access by line, the leaf primitives (00_scope.md R9), the fault
entry (60_exceptions.md R104), the admission of a request (41_transfer.md R68, 40_initialize.md R66) and its
completion (R74, R65).
-/

namespace Sys2Proof.Machine

/-- The entry of line `l`. -/
def Lines.get {α : Type} (r : Lines α) : Line → α
  | .clk => r.clk
  | .data => r.data
  | .enN => r.enN
  | .rstN => r.rstN

/-- The table with the entry of line `l` replaced. -/
def Lines.set {α : Type} (r : Lines α) (l : Line) (v : α) : Lines α :=
  match l with
  | .clk => { r with clk := v }
  | .data => { r with data := v }
  | .enN => { r with enN := v }
  | .rstN => { r with rstN := v }

/-- The effect of a completed primitive on the line registers (R9). A `drive` writes the latch whatever the
direction is (R15, D7). -/
def LineRegs.apply (p : Prim) (r : LineRegs) : LineRegs :=
  match p with
  | .cfgFast l => { r with cfg := r.cfg.set l true }
  | .setDir l d => { r with dir := r.dir.set l (.holds d) }
  | .drive l v => { r with lat := r.lat.set l (.holds v) }
  | .sample _ => r
  | .delay => r

/-- The line registers after a leaf failure: every latch and direction `unspec`, `cfg` kept (R104(4)). -/
def LineRegs.forget (r : LineRegs) : LineRegs :=
  { r with lat := Lines.all .unspec, dir := Lines.all .unspec }

/-- What the platform does with the `k`-th leaf primitive from here: its script, and past the script a free
value (R97, D13). -/
def State.leafAnswer (s : State) (k : Nat) : PlatformAnswer :=
  (s.platform[k]?).getD (Config.platformAnswer (s.leafDraws + k))

/-- What the environment answers to the `k`-th sample from here: its script, and past the script a free value
(R82, D6). Nothing the transceiver drives enters it. -/
def State.sampleLevel (s : State) (k : Nat) : Level :=
  (s.samples[k]?).getD (Config.sampleLevel (s.sampleDraws + k))

/-- The two accumulators (R22). -/
inductive Rx where
  | cmd
  | data
deriving DecidableEq, Repr

/-- The accumulator is cleared to 0 when its EXCHANGE_WORD starts (R22). -/
def TxnRegs.clearRx (x : Rx) (t : TxnRegs) : TxnRegs :=
  match x with
  | .cmd => { t with rxCmd := .holds 0 }
  | .data => { t with rxData := .holds 0 }

/-- A sampled bit enters the accumulator at bit 0 (R22, R84). -/
def TxnRegs.takeBit (x : Rx) (b : Bool) (t : TxnRegs) : TxnRegs :=
  match x with
  | .cmd => { t with rxCmd := t.rxCmd.update (shiftIn b) }
  | .data => { t with rxData := t.rxData.update (shiftIn b) }

/-- One entry of a primitive list: a leaf primitive, with what EXCHANGE_WORD does to its accumulator there. -/
inductive Slot where
  /-- A leaf primitive and nothing more. -/
  | prim (p : Prim)
  /-- The first primitive of an EXCHANGE_WORD: the accumulator is cleared as it starts. -/
  | opens (x : Rx) (p : Prim)
  /-- A `sample(DATA)` whose bit enters the accumulator. -/
  | takes (x : Rx)
deriving DecidableEq, Repr

/-- The leaf primitive of an entry. -/
def Slot.leaf : Slot → Prim
  | .prim p => p
  | .opens _ p => p
  | .takes _ => .sample .data

/-- What an entry does to the accumulators; `v` is the level sampled. -/
def Slot.onTxn (v : Level) (t : TxnRegs) : Slot → TxnRegs
  | .prim _ => t
  | .opens x _ => t.clearRx x
  | .takes x => t.takeBit x (bitOf v)

/-- The platform has taken its step with one leaf primitive, whichever way. -/
def State.leafTried (s : State) : State :=
  { s with platform := s.platform.tail, leafDraws := s.leafDraws + 1 }

/-- The environment has answered one sample, if the primitive was one. -/
def State.sampleTaken (p : Prim) (s : State) : State :=
  if p.isSample then { s with samples := s.samples.tail, sampleDraws := s.sampleDraws + 1 } else s

/-- The effect of an entry whose primitive the platform performed: the line registers (R9), one event (R27), the
accumulator (R84) and the position (R24: each completed primitive adds 1). -/
def Slot.commit (sl : Slot) (s : State) : State :=
  let v := s.sampleLevel 0
  let t := sl.onTxn v s.txn
  State.sampleTaken sl.leaf
    { s with
      lines := s.lines.apply sl.leaf
      txn := { t with seq := t.seq.update (· + 1) }
      hist := s.hist ++ [sl.leaf.event v] }

/-- Taking the one fault, `LeafIOFailure(p, L)` (R104): no effect and no event of the failing primitive, mode
`Faulted`, latches and directions `unspec`, `cfg` and the history kept, transaction registers `unspec`, and the
response that names the primitive and the line. Nothing is saved for resumption; the way back is INIT (R105). -/
def takeLeafFault (p : Prim) (s : State) : State :=
  { s with
    mode := .faulted
    lines := s.lines.forget
    txn := .unspec
    responses := s.responses ++ [.fault ⟨p.name, p.line⟩] }

/-- How a run of primitives ends: all done, cut short by a leaf failure whose entry has been taken, or stuck. -/
inductive LeafResult where
  | done (s : State)
  | failed (s : State)
  | stuck (f : Fault)
deriving DecidableEq, Repr

/-- One leaf primitive: the atomic step of the transceiver (D22). -/
def perform (sl : Slot) (s : State) : LeafResult :=
  match s.leafAnswer 0 with
  | .completes => .done (sl.commit s.leafTried)
  | .fails => .failed (takeLeafFault sl.leaf s.leafTried)
  | .hangs => .stuck (.leafNeverReturns sl.leaf.name sl.leaf.line)

/-- A list of primitives in order; the first that fails ends it (R97, R103). -/
def runSlots : List Slot → State → LeafResult
  | [], s => .done s
  | sl :: rest, s =>
    match perform sl s with
    | .done s' => runSlots rest s'
    | .failed s' => .failed s'
    | .stuck f => .stuck f

/-- The outcome of a sub-protocol or micro-operation. Taking the fault is a next state (R104). -/
def LeafResult.outcome : LeafResult → Host.Outcome State Fault Refusal
  | .done s => .next s
  | .failed s => .next s
  | .stuck f => .fault f

/-- Whether a request is in progress. -/
def State.isBusy (s : State) : Bool :=
  match s.mode with
  | .busy _ => true
  | .uninit => false
  | .ready => false
  | .faulted => false

/-- INIT is accepted in every mode but `Busy` (R66). It clears no history. -/
def admitInit (s : State) : Except Refusal State :=
  if s.isBusy then .error .requestWhileBusy
  else .ok { s with mode := .busy .init, txn := { TxnRegs.unspec with seq := .holds 0 } }

/-- A well-shaped TRANSFER is accepted in mode `Ready` only (R68, R115). Its operands are latched once (R47), and
TRANSFER step 1 takes the direction from the host's word (R23, R69). -/
def admitFrame (cmd : CmdWord) (data : DataWord) (s : State) : Except Refusal State :=
  match s.mode with
  | .busy _ => .error .requestWhileBusy
  | .uninit => .error .transferBeforeInit
  | .faulted => .error .transferAfterFault
  | .ready =>
    .ok { s with
      mode := .busy .transfer
      txn :=
        { txCmd := .holds cmd
          txData := .holds data
          rxCmd := .unspec
          rxData := .unspec
          directionRead := .holds (directionBit cmd)
          seq := .holds 0 } }

/-- A call of the wrong shape: the caller's words back and nothing else, in every mode but `Busy` (R70, R94). -/
def ignoreCall (answer : Response) (s : State) : Host.Outcome State Fault Refusal :=
  if s.isBusy then .refused .requestWhileBusy
  else .next { s with responses := s.responses ++ [answer] }

/-- The response of a completed request (R25, R56). -/
def jobResponse (job : Job) (s : State) : Response :=
  match job with
  | .init => .done
  | .transfer =>
    .words (echoWord (s.txn.rxCmd.read (Config.unspecCmd s.leafDraws)))
      (s.txn.rxData.read (Config.unspecData s.leafDraws))

/-- The end of a request whose list has run out: the response is delivered, the mode is `Ready`, the transaction
registers are `unspec` again (R24, R64, R74). -/
def completeJob (job : Job) (s : State) : State :=
  { s with mode := .ready, txn := .unspec, responses := s.responses ++ [jobResponse job s] }

/-- The outcome of a request whose list has been run. -/
def LeafResult.requestOutcome (job : Job) : LeafResult → Host.Outcome State Fault Refusal
  | .done s => .next (completeJob job s)
  | .failed s => .next s
  | .stuck f => .fault f

end Sys2Proof.Machine
end

