-- ==== Sys2Proof/Machine/Sequence.lean ====
section
/-!
DEFINITION. The primitive lists of the operations (42_exchange.md R79 to R88, 40_initialize.md R64, 41_transfer.md
R69) and the sequencer that runs the list of the request in progress one primitive a step (10_state.md R24, D22).
The meanings of the operations and the sequencer read the same lists.
-/

namespace Sys2Proof.Machine

/-- SETTLE: `delay()` (R79). -/
def settleSlots : List Slot := [.prim .delay]

/-- CLOCK_PULSE: `delay ; drive(CLK, High) ; delay ; drive(CLK, Low)`, each edge preceded by its delay (R80, C3). -/
def clockPulseSlots : List Slot :=
  settleSlots ++ [.prim (.drive .clk (Level.flip Config.params.clkIdle))]
    ++ settleSlots ++ [.prim (.drive .clk Config.params.clkIdle)]

/-- DATA_OUT: `drive(DATA, lvl(b))` (R81). -/
def dataOutSlots (b : Bool) : List Slot := [.prim (.drive .data (lvl b))]

/-- DATA_IN: `sample(DATA)` (R82); `x` is the accumulator its bit enters, none where it runs on its own. -/
def dataInSlots : Option Rx → List Slot
  | none => [.prim (.sample .data)]
  | some x => [.takes x]

/-- SELECT: `drive(EN_N, Low)` (R85). -/
def selectSlots : List Slot := [.prim (.drive .enN Config.params.enActive)]

/-- UNSELECT: `drive(EN_N, High)` (R86). -/
def unselectSlots : List Slot := [.prim (.drive .enN (Level.flip Config.params.enActive))]

/-- DIR_IN: `set_dir(DATA, In)` (R87). -/
def dirInSlots : List Slot := [.prim (.setDir .data .inp)]

/-- DIR_OUT: `set_dir(DATA, Out)` (R88). -/
def dirOutSlots : List Slot := [.prim (.setDir .data .out)]

/-- EXCHANGE_BIT: the bit is driven, the clock pulses, the line is sampled (R83). -/
def exchangeBitSlots (x : Option Rx) (b : Bool) : List Slot :=
  dataOutSlots b ++ clockPulseSlots ++ dataInSlots x

/-- The iterations of EXCHANGE_WORD, bits `n-1` down to 0 of `value` (R84). -/
def exchangeBitsSlots (x : Option Rx) (value : BitVec 16) : Nat → List Slot
  | 0 => []
  | i + 1 => exchangeBitSlots x (value.getLsbD i) ++ exchangeBitsSlots x value i

/-- The accumulator is cleared as the first primitive of the word starts (R22). -/
def openWord : Option Rx → List Slot → List Slot
  | some x, .prim p :: rest => .opens x p :: rest
  | _, slots => slots

/-- EXCHANGE_WORD of `n` bits into the accumulator `x` (R84). -/
def exchangeWordSlots (x : Option Rx) (value : BitVec 16) (n : Nat) : List Slot :=
  openWord x (exchangeBitsSlots x value n)

/-- The accumulator that an EXCHANGE_WORD of `n` bits writes: `rx_cmd` for 9, `rx_data` for 16 (R84, R92). -/
def wordRx (n : Nat) : Option Rx :=
  if n = Config.params.cmdBits then some .cmd else if n = Config.params.dataBits then some .data else none

/-- `k` clock pulses. -/
def pulses (k : Nat) : List Slot := (List.replicate k clockPulseSlots).flatten

/-- INIT: the ten primitives of R64, in its order. -/
def initSlots : List Slot :=
  [.prim (.cfgFast .clk), .prim (.cfgFast .data), .prim (.setDir .clk .out), .prim (.setDir .data .out),
    .prim (.drive .clk Config.params.clkIdle), .prim (.drive .data .low),
    .prim (.setDir .enN .out), .prim (.setDir .rstN .out),
    .prim (.drive .enN (Level.flip Config.params.enActive)), .prim (.drive .rstN (Level.flip Config.params.rstActive))]

/-- Step 5 of R69: on a read the data line turns to input and one pulse passes. -/
def turnaroundSlots (read : Bool) : List Slot :=
  if read then dirInSlots ++ pulses Config.params.turnPulses else []

/-- Steps 2 to 8 of R69 (step 1 touches no line and is part of the admission). -/
def transferSlots (cmd : CmdWord) (data : DataWord) (read : Bool) : List Slot :=
  pulses Config.params.prePulses
    ++ selectSlots
    ++ exchangeWordSlots (wordRx Config.params.cmdBits) (cmd.setWidth 16) Config.params.cmdBits
    ++ turnaroundSlots read
    ++ exchangeWordSlots (wordRx Config.params.dataBits) data Config.params.dataBits
    ++ (List.replicate Config.params.settleDelays settleSlots).flatten ++ unselectSlots ++ dirOutSlots
    ++ pulses Config.params.postPulses

/-- The list of the request in progress, from the registers that hold its operands (R24). -/
def jobSlots (job : Job) (s : State) : List Slot :=
  match job with
  | .init => initSlots
  | .transfer =>
    transferSlots (s.txn.txCmd.read (Config.unspecCmd s.leafDraws))
      (s.txn.txData.read (Config.unspecData s.leafDraws))
      (s.txn.directionRead.read (Config.unspecDirection s.leafDraws))

/-- One step of the sequencer in mode `Busy`: the primitive at `S.seq`; when it was the last, the request is
complete in the same step (R14, R24). A position past the list, which no run reaches, completes at once. -/
def tick (job : Job) (s : State) : Host.Outcome State Fault Refusal :=
  let slots := jobSlots job s
  let k := s.txn.seq.read (Config.unspecSeq s.leafDraws)
  match slots[k]? with
  | none => .next (completeJob job s)
  | some sl =>
    match perform sl s with
    | .done s' => .next (if k + 1 = slots.length then completeJob job s' else s')
    | .failed s' => .next s'
    | .stuck f => .fault f

/-- An admitted request run to its end (R64, R68): what the sequencer does from its first primitive on. -/
def runRequest (job : Job) : Except Refusal State → Host.Outcome State Fault Refusal
  | .error r => .refused r
  | .ok s => (runSlots (jobSlots job s) s).requestOutcome job

/-- The state in which an admitted request stands before its first primitive, for the operations that have one. -/
def begins (i : Instr) (s : State) : Option State :=
  match i with
  | .init => (admitInit s).toOption
  | .xferW r a v => (admitFrame (commandWord r false a) v s).toOption
  | .xferR r a v => (admitFrame (commandWord r true a) v s).toOption
  | .transfer _ => none
  | .nopT _ => none
  | .transferSegments _ => none
  | .nopS _ => none
  | .exchangeWord _ _ => none
  | .exchangeBit _ => none
  | .clockPulse => none
  | .settle => none
  | .dataOut _ => none
  | .dataIn => none
  | .select => none
  | .unselect => none
  | .dirIn => none
  | .dirOut => none

end Sys2Proof.Machine
end

