-- ==== Sys2Proof/Machine/Exchange.lean ====
section
/-!
DEFINITION. The meanings of the two sub-protocols (42_exchange.md R83, R84).
-/

namespace Sys2Proof.Machine

/-- EXCHANGE_BIT (R83). The bit it returns stands in the last event it records. -/
def execExchangeBit (b : Bool) (s : State) : Host.Outcome State Fault Refusal :=
  (runSlots (exchangeBitSlots none b) s).outcome

/-- EXCHANGE_WORD (R84): the word it returns is left in `rx_cmd` for 9 bits and in `rx_data` for 16. No other
count occurs (R92); the definition of R84 holds for one all the same, and writes no register. -/
def execExchangeWord (value : BitVec 16) (n : Nat) (s : State) : Host.Outcome State Fault Refusal :=
  (runSlots (exchangeWordSlots (wordRx n) value n) s).outcome

end Sys2Proof.Machine
end

