-- ==== Sys2Proof/Machine/Micro.lean ====
section
/-!
DEFINITION. The meanings of the eight micro-operations (42_exchange.md R79 to R82, R85 to R88). None can be
requested by the host; each is the effect of its primitives wherever the sequencer runs them.
-/

namespace Sys2Proof.Machine

/-- SETTLE (R79). -/
def execSettle (s : State) : Host.Outcome State Fault Refusal := (runSlots settleSlots s).outcome

/-- CLOCK_PULSE (R80). -/
def execClockPulse (s : State) : Host.Outcome State Fault Refusal := (runSlots clockPulseSlots s).outcome

/-- DATA_OUT (R81). -/
def execDataOut (b : Bool) (s : State) : Host.Outcome State Fault Refusal := (runSlots (dataOutSlots b) s).outcome

/-- DATA_IN (R82). The bit it returns stands in the event it records; no field takes it. -/
def execDataIn (s : State) : Host.Outcome State Fault Refusal := (runSlots (dataInSlots none) s).outcome

/-- SELECT (R85). -/
def execSelect (s : State) : Host.Outcome State Fault Refusal := (runSlots selectSlots s).outcome

/-- UNSELECT (R86). -/
def execUnselect (s : State) : Host.Outcome State Fault Refusal := (runSlots unselectSlots s).outcome

/-- DIR_IN (R87). -/
def execDirIn (s : State) : Host.Outcome State Fault Refusal := (runSlots dirInSlots s).outcome

/-- DIR_OUT (R88). -/
def execDirOut (s : State) : Host.Outcome State Fault Refusal := (runSlots dirOutSlots s).outcome

end Sys2Proof.Machine
end

