-- ==== Sys2Proof/Machine/Requests.lean ====
section
/-!
DEFINITION. The meanings of the host requests and the kinds they resolve to (40_initialize.md R64, 41_transfer.md
R68 to R72, 43_multi_segment.md R93 to R95), each carried out to its end (00_scope.md R11).
-/

namespace Sys2Proof.Machine

/-- INIT (R64, R66). -/
def execInit (s : State) : Host.Outcome State Fault Refusal := runRequest .init (admitInit s)

/-- XFER.W (R71): the transaction whose command word has direction bit 0. -/
def execXferW (r : BitVec 1) (a : RegAddr) (v : DataWord) (s : State) : Host.Outcome State Fault Refusal :=
  runRequest .transfer (admitFrame (commandWord r false a) v s)

/-- XFER.R (R72): the transaction whose command word has direction bit 1. -/
def execXferR (r : BitVec 1) (a : RegAddr) (v : DataWord) (s : State) : Host.Outcome State Fault Refusal :=
  runRequest .transfer (admitFrame (commandWord r true a) v s)

/-- A Transfer request with any word list (R68): the shape guard, then the transaction on the two words. -/
def transferWords (words : List HostWord) (s : State) : Host.Outcome State Fault Refusal :=
  match words with
  | [w0, w1] => runRequest .transfer (admitFrame (cmdField w0) w1 s)
  | other => ignoreCall (.ignored other) s

/-- TRANSFER (R68). -/
def execTransfer (words : List HostWord) (s : State) : Host.Outcome State Fault Refusal := transferWords words s

/-- NOP.T (R70). -/
def execNopT (words : List HostWord) (s : State) : Host.Outcome State Fault Refusal := ignoreCall (.ignored words) s

/-- TRANSFER_SEGMENTS (R93): the segment guard, then exactly TRANSFER of the one segment (R95: the guards nest). -/
def execTransferSegments (segs : List (List HostWord)) (s : State) : Host.Outcome State Fault Refusal :=
  match segs with
  | [words] => transferWords words s
  | other => ignoreCall (.ignoredSegments other) s

/-- NOP.S (R94). -/
def execNopS (segs : List (List HostWord)) (s : State) : Host.Outcome State Fault Refusal :=
  ignoreCall (.ignoredSegments segs) s

end Sys2Proof.Machine
end

