-- ==== Sys2Proof/Machine/Dispatch.lean ====
section
/-!
DEFINITION. One arm per operation of the opcode table.
-/

namespace Sys2Proof.Machine

/-- The meaning of every operation (spec/opcode_table.json). -/
def exec (i : Instr) (s : State) : Host.Outcome State Fault Refusal :=
  match i with
  | .xferW r a v => Sys2Proof.Machine.execXferW r a v s
  | .xferR r a v => Sys2Proof.Machine.execXferR r a v s
  | .init => Sys2Proof.Machine.execInit s
  | .transfer words => Sys2Proof.Machine.execTransfer words s
  | .nopT words => Sys2Proof.Machine.execNopT words s
  | .transferSegments segs => Sys2Proof.Machine.execTransferSegments segs s
  | .nopS segs => Sys2Proof.Machine.execNopS segs s
  | .exchangeWord value n => Sys2Proof.Machine.execExchangeWord value n s
  | .exchangeBit b => Sys2Proof.Machine.execExchangeBit b s
  | .clockPulse => Sys2Proof.Machine.execClockPulse s
  | .settle => Sys2Proof.Machine.execSettle s
  | .dataOut b => Sys2Proof.Machine.execDataOut b s
  | .dataIn => Sys2Proof.Machine.execDataIn s
  | .select => Sys2Proof.Machine.execSelect s
  | .unselect => Sys2Proof.Machine.execUnselect s
  | .dirIn => Sys2Proof.Machine.execDirIn s
  | .dirOut => Sys2Proof.Machine.execDirOut s

end Sys2Proof.Machine
end

