-- ==== Sys2Proof/Machine/Flags.lean ====
section
/-!
DEFINITION. The derived flags and levels (10_state.md R18 to R20): functions of the state, not fields of it. A
latch without a value shows a free level, so none of them may be assumed before it has one (R67).
-/

namespace Sys2Proof.Machine

/-- The level in the latch of line `l`: free where the latch is `unspec` (R18, U1, U10, U11). -/
def State.latchLevel (s : State) (l : Line) : Level :=
  (s.lines.lat.get l).read (Config.unspecLatch l s.leafDraws)

/-- `pin(L)` (R18): the latch while the transceiver drives the line; otherwise free, the environment's. -/
def State.pin (s : State) (l : Line) : Level :=
  match s.lines.dir.get l with
  | .holds .out => s.latchLevel l
  | .holds .inp => Config.undrivenPin l s.leafDraws
  | .unspec => Config.undrivenPin l s.leafDraws

/-- `selected` (R19): the enable latch is at its active level. -/
def State.selected (s : State) : Bool := s.latchLevel .enN == Config.params.enActive

/-- `chip_in_reset` (R20): the reset latch is at its active level. -/
def State.chipInReset (s : State) : Bool := s.latchLevel .rstN == Config.params.rstActive

end Sys2Proof.Machine
end

