-- ==== Sys2Proof/Machine/Step.lean ====
section
/-!
DEFINITION. One step of the machine (00_scope.md R7, decision D22): in mode `Busy` one leaf primitive of the
request in progress; otherwise the admission of the host's next call, or the whole of it where it runs no leaf
primitive. Beside it, how the host's own check places an operation before the next step.
-/

namespace Sys2Proof.Machine

/-- One step.
In mode `Busy` a call that the host makes at once is an operation of the host in `Busy` (R115(a), R123) and is
given to `exec`, which refuses it; otherwise the sequencer takes one leaf primitive (R24).
In the other modes the next call is taken and decoded (R58): an INIT or a transaction that is accepted stands
before its first primitive, every other call is `exec` of its operation. With no call to come the transceiver
stays idle (R113). -/
def step (s : State) : Host.Outcome State Fault Refusal :=
  match s.mode, s.inbox with
  | .busy _, ⟨q, .overlapping⟩ :: rest => exec (decode q) { s with inbox := rest }
  | .busy job, _ => tick job s
  | _, [] => .next s
  | _, c :: rest =>
    match begins (decode c.request) { s with inbox := rest } with
    | some t => .next t
    | none => exec (decode c.request) { s with inbox := rest }

/-- The state after INIT as far as a later transfer depends on it (R31, R120): what a request to TRANSFER must
find. The history and the responses are left as they are. -/
def State.afterInit (s : State) : State :=
  { s with
    mode := .ready
    lines :=
      { lat := { clk := .holds .low, data := .holds .low, enN := .holds .high, rstN := .holds .high }
        dir := Lines.all (.holds .out)
        cfg := { clk := true, data := true, enN := false, rstN := false } }
    txn := .unspec }

/-- The state in which the next step takes the transaction whose words are the table bits `w`: the host's next
call is that TRANSFER, and the mode is `Ready`, without which no step takes a transaction (R120). -/
def State.withFetchWord (s : State) (nbits w : Nat) : State :=
  let r := if s.mode = .ready then s else s.afterInit
  { r with inbox := ⟨tableRequest nbits w, .serialised⟩ :: r.inbox }

end Sys2Proof.Machine
end

