-- ==== Sys2Proof/Safety.lean ====
section
/-!
DEFINITION. What claims about the transceiver are stated in: the premise that the platform performs its primitives
(60_exceptions.md R97), the event sequences of the operations in the notation of 95_test_vectors.md, the closed
form of a sampled word (41_transfer.md R73), the events R34 allows, and the invariants of the state (10_state.md
R31). The event sequences are written from the rules, not from the model's primitive lists.
-/

namespace Sys2Proof.Machine

/-- The platform performs the next `n` leaf primitives (the proviso of R91 and R140). -/
abbrev State.platformTakes (s : State) (n : Nat) : Prop := ∀ k < n, s.leafAnswer k = .completes

/-- The platform performs the next `k` leaf primitives and fails the one after them (R97). -/
abbrev State.platformFailsAt (s : State) (k : Nat) : Prop := s.platformTakes k ∧ s.leafAnswer k = .fails

/-- The state with `n` platform answers and `m` sample answers used up. -/
def State.used (s : State) (n m : Nat) : State :=
  { s with
    platform := s.platform.drop n
    leafDraws := s.leafDraws + n
    samples := s.samples.drop m
    sampleDraws := s.sampleDraws + m }

/-- The position after `n` more completed primitives (R24). -/
def TxnRegs.advance (n : Nat) (t : TxnRegs) : TxnRegs := { t with seq := t.seq.update (· + n) }

/-- The events of a clock pulse, `d C+ d C-` (R80). -/
def pulseEvents : List Event := [.delay, .drive .clk .high, .delay, .drive .clk .low]

/-- The events of a bit exchange that drives `b` and samples `v`, `Db P Sv` (R83). -/
def bitEvents (b : Bool) (v : Level) : List Event :=
  [.drive .data (lvl b)] ++ pulseEvents ++ [.sample .data v]

/-- The events of a word exchange of bits `n-1 .. 0` of `value`, whose `t`-th sample is `answer t` (R84, R36). -/
def wordEvents (value : BitVec 16) (n : Nat) (answer : Nat → Level) : List Event :=
  (List.range n).flatMap fun t => bitEvents (value.getLsbD (n - 1 - t)) (answer t)

/-- The events of the turnaround of a read, `>i P` (R72). -/
def turnaroundEvents (read : Bool) : List Event := if read then [.setDir .data .inp] ++ pulseEvents else []

/-- The events of a transaction (R69, R51): the pre-amble, SELECT, 9 command bits, on a read the turnaround, 16
data bits, the settle delay, UNSELECT, DIR_OUT and the trailing pulse. -/
def transferEvents (cmd : CmdWord) (data : DataWord) (answer : Nat → Level) : List Event :=
  pulseEvents ++ pulseEvents ++ [.drive .enN .low]
    ++ wordEvents (cmd.setWidth 16) 9 answer
    ++ turnaroundEvents (cmd.getLsbD 7)
    ++ wordEvents data 16 (fun k => answer (9 + k))
    ++ [.delay, .drive .enN .high, .setDir .data .out] ++ pulseEvents

/-- The events of INIT (R64). -/
def initEvents : List Event :=
  [.cfg .clk, .cfg .data, .setDir .clk .out, .setDir .data .out, .drive .clk .low, .drive .data .low,
    .setDir .enN .out, .setDir .rstN .out, .drive .enN .high, .drive .rstN .high]

/-- How many primitives a transaction takes: 166 for a write, 171 for a read (R76). -/
def transferLength (read : Bool) : Nat := if read then 171 else 166

/-- The number whose bits, most significant first, are the `n` sampled levels (R73). -/
def sampledWord (n : Nat) (answer : Nat → Level) : Nat :=
  ((List.range n).map fun t => (bitOf (answer t)).toNat * 2 ^ (n - 1 - t)).sum

/-- The line registers a completed transaction leaves (R74). -/
def LineRegs.afterTransfer (data : DataWord) (r : LineRegs) : LineRegs :=
  { r with
    lat := { r.lat with clk := .holds .low, data := .holds (lvl (data.getLsbD 0)), enN := .holds .high }
    dir := { r.dir with data := .holds .out } }

/-- The state a completed transaction leaves, from a state in mode `Ready` (R71 to R74). -/
def State.afterTransfer (s : State) (cmd : CmdWord) (data : DataWord) : State :=
  { s.used (transferLength (cmd.getLsbD 7)) 25 with
    mode := .ready
    lines := s.lines.afterTransfer data
    txn := .unspec
    hist := s.hist ++ transferEvents cmd data s.sampleLevel
    responses := s.responses ++
      [.words (BitVec.ofNat 16 (sampledWord 9 s.sampleLevel))
        (BitVec.ofNat 16 (sampledWord 16 fun k => s.sampleLevel (9 + k)))] }

/-- The line registers a completed INIT leaves (R31, R65); the fast-mode flags of `EN_N` and `RST_N` are not
touched (R17). -/
def LineRegs.afterInit (r : LineRegs) : LineRegs where
  lat := { clk := .holds .low, data := .holds .low, enN := .holds .high, rstN := .holds .high }
  dir := Lines.all (.holds .out)
  cfg := { clk := true, data := true, enN := r.cfg.enN, rstN := r.cfg.rstN }

/-- The state a completed INIT leaves (R64, R65). -/
def State.afterInitRequest (s : State) : State :=
  { s.used 10 0 with
    mode := .ready
    lines := s.lines.afterInit
    txn := .unspec
    hist := s.hist ++ initEvents
    responses := s.responses ++ [.done] }

/-- What a failing event would have been called in the fault's response (R97, R98). -/
def Event.failure : Event → LeafFailure
  | .cfg l => ⟨.cfgFast, some l⟩
  | .setDir l _ => ⟨.setDir, some l⟩
  | .drive l _ => ⟨.drive, some l⟩
  | .sample l _ => ⟨.sample, some l⟩
  | .delay => ⟨.delay, none⟩

/-- The fast-mode flags after some events (R17). -/
def cfgAfter (seen : List Event) (cfg : Lines Bool) : Lines Bool :=
  seen.foldl (fun c e => match e with
    | .cfg l => c.set l true
    | .setDir _ _ => c
    | .drive _ _ => c
    | .sample _ _ => c
    | .delay => c) cfg

/-- Whether an event is a sample. -/
def Event.isSample : Event → Bool
  | .sample _ _ => true
  | .cfg _ => false
  | .setDir _ _ => false
  | .drive _ _ => false
  | .delay => false

/-- The state after a request whose first `seen.length` primitives completed, with the events `seen`, and whose
next primitive, the one of the event `e`, failed (R104). -/
def State.afterFault (s : State) (seen : List Event) (e : Event) : State :=
  { s.used (seen.length + 1) (seen.countP Event.isSample) with
    mode := .faulted
    lines := { lat := Lines.all .unspec, dir := Lines.all .unspec, cfg := cfgAfter seen s.lines.cfg }
    txn := .unspec
    hist := s.hist ++ seen
    responses := s.responses ++ [.fault e.failure] }

/-- The events of an operation that runs a primitive list of its own as a request (R64, R69). -/
def requestEvents (i : Instr) (answer : Nat → Level) : List Event :=
  match i with
  | .init => initEvents
  | .xferW r a v => transferEvents (commandWord r false a) v answer
  | .xferR r a v => transferEvents (commandWord r true a) v answer
  | .transfer _ => []
  | .nopT _ => []
  | .transferSegments _ => []
  | .nopS _ => []
  | .exchangeWord _ _ => []
  | .exchangeBit _ => []
  | .clockPulse => []
  | .settle => []
  | .dataOut _ => []
  | .dataIn => []
  | .select => []
  | .unselect => []
  | .dirIn => []
  | .dirOut => []

/-- The transaction of either kind. -/
def xfer (read : Bool) (r : BitVec 1) (a : RegAddr) (v : DataWord) : Instr :=
  if read then .xferR r a v else .xferW r a v

/-- `P(k)` of R76: the four primitives of a clock pulse stand at positions `k` to `k + 3`. -/
abbrev pulseAt (prims : List Prim) (k : Nat) : Prop :=
  prims[k]? = some .delay ∧ prims[k + 1]? = some (.drive .clk .high) ∧ prims[k + 2]? = some .delay ∧
    prims[k + 3]? = some (.drive .clk .low)

/-- `X(k, b)` of R76: the six primitives of a bit exchange that drives `b` stand at positions `k` to `k + 5`. -/
abbrev bitAt (prims : List Prim) (k : Nat) (b : Bool) : Prop :=
  prims[k]? = some (.drive .data (lvl b)) ∧ pulseAt prims (k + 1) ∧ prims[k + 5]? = some (.sample .data)

/-- The flat list of a transaction as R76 tabulates it. -/
abbrev flatList (read : Bool) (c : CmdWord) (d : DataWord) (prims : List Prim) : Prop :=
  prims.length = (if read then 171 else 166) ∧
    pulseAt prims 0 ∧ pulseAt prims 4 ∧ prims[8]? = some (.drive .enN .low) ∧
    (∀ t < 9, bitAt prims (9 + 6 * t) (c.getLsbD (8 - t))) ∧
    (read = true → prims[63]? = some (.setDir .data .inp) ∧ pulseAt prims 64) ∧
    (∀ k < 16, bitAt prims ((if read then 68 else 63) + 6 * k) (d.getLsbD (15 - k))) ∧
    prims[if read then 164 else 159]? = some .delay ∧
    prims[if read then 165 else 160]? = some (.drive .enN .high) ∧
    prims[if read then 166 else 161]? = some (.setDir .data .out) ∧
    pulseAt prims (if read then 167 else 162)

/-- The level an event gives to the data line, if it is a `drive` of it (R51). -/
def Event.dataDriven : Event → Option Level
  | .drive .data v => some v
  | _ => none

/-- An event with the environment's part taken out of it. -/
def Event.erased : Event → Event
  | .sample l _ => .sample l .low
  | e => e

/-- The events R34 allows: only `CLK` and `DATA` are configured, only `DATA` is sampled, only `DATA` becomes an
input, and `RST_N` is never driven to its active level (R119). -/
def Event.allowed : Event → Bool
  | .cfg l => l == .clk || l == .data
  | .setDir l d => d == .out || l == .data
  | .drive l v => l != .rstN || v == .high
  | .sample l _ => l == .data
  | .delay => true

/-- A call that waits for the request in progress, or none at all (R123). -/
def waits (inbox : List HostCall) : Bool :=
  match inbox with
  | [] => true
  | c :: _ => c.timing == .serialised

/-- Requests accepted and not yet answered (R25). -/
def State.outstanding (s : State) : Nat := if s.isBusy then 1 else 0

/-- The mode changes of R14: INIT from every mode but `Busy`, TRANSFER from `Ready`, completion and fault from
`Busy`. -/
def Mode.mayBecome : Mode → Mode → Bool
  | .uninit, .busy .init => true
  | .ready, .busy _ => true
  | .faulted, .busy .init => true
  | .busy _, .ready => true
  | .busy _, .faulted => true
  | m, m' => m == m'

/-- The line registers after the primitives of `slots` (R9). -/
def linesAfter (slots : List Slot) (r : LineRegs) : LineRegs := slots.foldl (fun r sl => r.apply sl.leaf) r

/-- The line state of mode `Ready` (R31): clock Low, enable and reset High, all four lines outputs, the data latch
at some level, fast mode set for clock and data. -/
abbrev LineRegs.atRest (r : LineRegs) : Prop :=
  r.lat.clk = .holds .low ∧ r.lat.data ≠ .unspec ∧ r.lat.enN = .holds .high ∧ r.lat.rstN = .holds .high ∧
    r.dir = Lines.all (.holds .out) ∧ r.cfg.clk = true ∧ r.cfg.data = true

/-- Where the data word starts in the list of a transaction (R76). -/
def dataStart (read : Bool) : Nat := if read then 68 else 63

/-- INIT in progress: what is left of its list leads to the line state of mode `Ready`. -/
def State.initSound (s : State) : Prop :=
  ∃ k, s.txn = { TxnRegs.unspec with seq := .holds k } ∧ k < initSlots.length ∧
    (linesAfter (initSlots.drop k) s.lines).atRest

/-- TRANSFER in progress: the operands and the direction are held (R21, R23), each accumulator holds a value once
its word has begun (R22), and what is left of the list leads to the line state of mode `Ready`. -/
def State.transferSound (s : State) : Prop :=
  ∃ c d k, s.txn.txCmd = .holds c ∧ s.txn.txData = .holds d ∧ s.txn.directionRead = .holds (directionBit c) ∧
    s.txn.seq = .holds k ∧ k < transferLength (directionBit c) ∧
    (9 < k → s.txn.rxCmd ≠ .unspec) ∧ (dataStart (directionBit c) < k → s.txn.rxData ≠ .unspec) ∧
    (linesAfter ((transferSlots c d (directionBit c)).drop k) s.lines).atRest

/-- What mode `m` says of the fields (R14, R30, R31, R104). -/
def State.soundIn (s : State) : Mode → Prop
  | .uninit => s.lines = .powerOn ∧ s.txn = .unspec ∧ s.hist = []
  | .ready => s.lines.atRest ∧ s.txn = .unspec
  | .faulted => s.lines.lat = Lines.all .unspec ∧ s.lines.dir = Lines.all .unspec ∧ s.txn = .unspec
  | .busy .init => s.initSound
  | .busy .transfer => s.transferSound

/-- The invariant of the machine (R13 to R31): fast mode is for `CLK` and `DATA` only, and the fields stand as the
mode says. -/
def State.inv (s : State) : Prop :=
  s.lines.cfg.enN = false ∧ s.lines.cfg.rstN = false ∧ s.soundIn s.mode

/-- The enable latch, the data direction and the reset latch while the next primitive of a transaction is number
`k` (R76, R72 corner (c), R119): selected from SELECT to UNSELECT, `DATA` an input from DIR_IN to DIR_OUT on a
read only, the chip never in reset. -/
abbrev LineRegs.inWindow (read : Bool) (k : Nat) (r : LineRegs) : Prop :=
  r.lat.enN = .holds (if 8 < k ∧ k < transferLength read - 5 then .low else .high) ∧
    r.dir.data = .holds (if read ∧ 63 < k ∧ k < 167 then .inp else .out) ∧ r.lat.rstN = .holds .high

/-- INIT in progress, as far as the windows go: `DATA` is an output once primitive 3 has run, the chip unselected
once primitive 8 has (R64). -/
def State.initWindow (s : State) : Prop :=
  ∃ k, s.txn.seq = .holds k ∧ k < 10 ∧
    (3 < k → s.lines.dir.data = .holds .out) ∧ (8 < k → s.lines.lat.enN = .holds .high)

/-- TRANSFER in progress: the lines stand as its position says. -/
def State.transferWindow (s : State) : Prop :=
  ∃ c k, s.txn.txCmd = .holds c ∧ s.txn.directionRead = .holds (directionBit c) ∧ s.txn.seq = .holds k ∧
    k < transferLength (directionBit c) ∧ s.lines.inWindow (directionBit c) k

/-- What mode `m` says of the windows: in mode `Ready` the chip is unselected and out of reset and `DATA` is an
output. Nothing is claimed before INIT and after a fault. -/
def State.windowIn (s : State) : Mode → Prop
  | .uninit => True
  | .ready => s.lines.inWindow false 0
  | .faulted => True
  | .busy .init => s.initWindow
  | .busy .transfer => s.transferWindow

/-- The windows of a transaction, as an invariant. -/
def State.windowInv (s : State) : Prop := s.windowIn s.mode

end Sys2Proof.Machine
end

