-- ==== Sys2Proof/Certificates/Slice0/Obligations.lean ====
section
/-!
DEFINITION. The statements about the model, each from the numbered rules of spec/ that its docstring names. The
events, counts and end states they speak of are those of Safety.lean, written from the rules.
-/

open Sys2Proof Sys2Proof.Machine

/-! ### Words, fields and the decode tree (30_encoding.md) -/

/-- R52: the kind of a transaction is bit 7 of the word the host supplied, mask 0x080 (the fields are R49's); it is
computed before any line is touched, and no step of the transaction changes it, so the sampled echo plays no part. -/
def Obligations.DirectionBitSelectsKind : Prop :=
  (∀ w0 w1 : HostWord,
    (decode (.transfer [w0, w1]) =
        if w0.getLsbD 7 then .xferR ((w0.setWidth 9).extractLsb' 8 1) ((w0.setWidth 9).extractLsb' 0 7) w1
        else .xferW ((w0.setWidth 9).extractLsb' 8 1) ((w0.setWidth 9).extractLsb' 0 7) w1) ∧
      (w0.getLsbD 7 = true ↔ w0.setWidth 9 &&& 0x080#9 = 0x080#9) ∧
      (w0.getLsbD 7 = false ↔ w0.setWidth 9 &&& 0x080#9 = 0x000#9)) ∧
  (∀ (w0 w1 : HostWord) (s t : State), begins (decode (.transfer [w0, w1])) s = some t →
    t.txn.directionRead = .holds (w0.getLsbD 7) ∧ t.lines = s.lines ∧ t.hist = s.hist) ∧
  ∀ s t : State, s.mode = .busy .transfer → step s = .next t → t.mode = .busy .transfer →
    t.txn.directionRead = s.txn.directionRead

/-- R57: which operation each request selects, by its counts alone. -/
def Obligations.CountsSelectOperation : Prop :=
  decode .init = .init ∧
    (∀ words, words.length ≠ 2 → decode (.transfer words) = .nopT words) ∧
    (∀ w0 w1, w0.getLsbD 7 = false → ∃ r a, decode (.transfer [w0, w1]) = .xferW r a w1) ∧
    (∀ w0 w1, w0.getLsbD 7 = true → ∃ r a, decode (.transfer [w0, w1]) = .xferR r a w1) ∧
    (∀ words, decode (.transferSegments [words]) = decode (.transfer words)) ∧
    (∀ segs, segs.length ≠ 1 → decode (.transferSegments segs) = .nopS segs)

/-- R49, R57: a well-formed operation that a host can request is what its request decodes to (TRANSFER and
TRANSFER_SEGMENTS being the kind they resolve to), with every operand at every value. -/
def Obligations.DecodeOfEncode : Prop :=
  ∀ i q, i.wf = true → encode i = some q → decode q = resolve i

/-- R55: encoding what a word list of length 2 decodes to gives the words back, but for bits 15..9 of the first. -/
def Obligations.EncodeOfDecodeDropsOnlyHighBits : Prop :=
  ∀ w0 w1 : HostWord,
    encode (decode (.transfer [w0, w1])) = some (.transfer [(w0.setWidth 9).setWidth 16, w1])

/-- From R21, R23, R24 and R55: the step that takes a well-shaped TRANSFER in mode `Ready` latches `words[0][8:0]`,
all of `words[1]` and the direction bit, and touches no line. The model's choice: that acceptance is a step of its own,
which leaves position 0 and the accumulators `unspec` (log 6, DEDUCED), and that it takes the call off a list (log 5,
DESIGN CHOICE). -/
def Obligations.AdmissionLatchesOperands : Prop :=
  ∀ (w0 w1 : HostWord) (timing : Timing) (rest : List HostCall) (s : State), s.mode = .ready →
    s.inbox = ⟨.transfer [w0, w1], timing⟩ :: rest →
    step s = .next { s with
      inbox := rest
      mode := .busy .transfer
      txn := ⟨.holds (w0.setWidth 9), .holds w1, .unspec, .unspec, .holds (w0.getLsbD 7), .holds 0⟩ }

/-- From R49: the two annotated literals of the source (S9: 0x005 and 0x085), the words of vectors V-W6 and V-R3, and
V-W6's command word with data 0. The model's choice: the layout that `decodeTableWord` reads, with the data word in bits
31..16, and data word 0 where the row has 16 bits (log 18, DESIGN CHOICE). -/
def Obligations.KnownWordsDecode : Prop :=
  decodeTableWord 16 0b000000101 = some (.xferW 0 5 0) ∧
    decodeTableWord 16 0b010000101 = some (.xferR 0 5 0) ∧
    decodeTableWord 16 0b101111111 = some (.xferW 1 127 0) ∧
    decodeTableWord 32 0x8001017F = some (.xferW 1 127 0x8001) ∧
    decodeTableWord 32 0xFFFF01FF = some (.xferR 1 127 0xFFFF)

/-! ### State (10_state.md) -/

/-- R30: every field at power-on; nothing happens until a request arrives. -/
def Obligations.PowerOnState : Prop :=
  State.reset.mode = .uninit ∧
    (∀ l, State.reset.lines.lat.get l = .unspec) ∧
    (∀ l, State.reset.lines.dir.get l = .unspec) ∧
    (∀ l, State.reset.lines.cfg.get l = false) ∧
    State.reset.txn = ⟨.unspec, .unspec, .unspec, .unspec, .unspec, .unspec⟩ ∧
    State.reset.hist = [] ∧
    step State.reset = .next State.reset

/-- The invariants hold at power-on. -/
def Obligations.PowerOnMeetsInvariants : Prop := State.reset.inv ∧ State.reset.windowInv

/-- R14, R21 to R24, R30, R31: what each mode says of the line registers and the transaction registers is kept by
every step. -/
def Obligations.StepKeepsModeInvariant : Prop := ∀ s t : State, s.inv → step s = .next t → t.inv

/-- R19, R72 corner (c): the chip is selected exactly from SELECT to UNSELECT, and `DATA` an input exactly from
DIR_IN to DIR_OUT of a read, at every step of every transaction; R119: it is never in reset. -/
def Obligations.StepKeepsSelectWindow : Prop := ∀ s t : State, s.windowInv → step s = .next t → t.windowInv

/-- R14: the only mode changes there are. -/
def Obligations.ModeChangesOnlyAsSpecified : Prop :=
  ∀ s t : State, step s = .next t → s.mode.mayBecome t.mode = true

/-- R17: fast mode is never set for `EN_N` and `RST_N`, and never cleared. -/
def Obligations.FastModeOnlyForClockAndData : Prop :=
  ∀ s t : State, step s = .next t →
    t.lines.cfg.enN = s.lines.cfg.enN ∧ t.lines.cfg.rstN = s.lines.cfg.rstN ∧
      (s.lines.cfg.clk = true → t.lines.cfg.clk = true) ∧ (s.lines.cfg.data = true → t.lines.cfg.data = true)

/-- R119, R20: no step drives the reset line Low. -/
def Obligations.ResetLineNeverDrivenLow : Prop :=
  ∀ s t : State, s.lines.lat.rstN ≠ .holds .low → step s = .next t → t.lines.lat.rstN ≠ .holds .low

/-- R27, R34: a step appends at most one event, and only one that R34 allows; it never takes one back. -/
def Obligations.HistoryGrowsByAllowedEvents : Prop :=
  ∀ s t : State, step s = .next t →
    t.hist = s.hist ∨ ∃ e : Event, e.allowed = true ∧ t.hist = s.hist ++ [e]

/-- R45: the history of a run is the history before it with the events of the run after it, in order. -/
def Obligations.RunOnlyAppendsToHistory : Prop :=
  ∀ (n : Nat) (s t : State), Host.Core.run Sys2Proof.core n s = .next t →
    ∃ new : List Event, t.hist = s.hist ++ new ∧ new.length ≤ n ∧ ∀ e ∈ new, e.allowed = true

/-- R25: each accepted request is answered by exactly one response: calls to come, requests in progress and
responses given keep their sum. -/
def Obligations.EachRequestAnsweredOnce : Prop :=
  ∀ s t : State, step s = .next t →
    t.inbox.length + t.outstanding + t.responses.length = s.inbox.length + s.outstanding + s.responses.length

/-- R18: the pin of a line the transceiver drives shows the latch, whatever the state. -/
def Obligations.DrivenPinShowsLatch : Prop :=
  ∀ (s : State) (l : Line) (v : Level),
    s.lines.dir.get l = .holds .out → s.lines.lat.get l = .holds v → s.pin l = v

/-! ### Micro-operations and sub-protocols (42_exchange.md) -/

/-- R79: one `Delay` event; no line, no accumulator and no flag changes. -/
def Obligations.SettleIsOneDelay : Prop :=
  ∀ s : State, s.platformTakes 1 →
    exec .settle s = .next { s.used 1 0 with txn := s.txn.advance 1, hist := s.hist ++ [.delay] }

/-- R80: four events, each edge preceded by a delay; the clock latch is Low after. -/
def Obligations.ClockPulseRisesThenFalls : Prop :=
  ∀ s : State, s.platformTakes 4 →
    exec .clockPulse s = .next { s.used 4 0 with
      lines := { s.lines with lat := { s.lines.lat with clk := .holds .low } }
      txn := s.txn.advance 4
      hist := s.hist ++ [.delay, .drive .clk .high, .delay, .drive .clk .low] }

/-- From R18, R24 and R81: the latch takes the bit whatever the direction is, the event is recorded and the position
goes up. A choice: that on an input line the latch is written and the pin does not follow (D7, log 14, PRESUMED and
unsafe), and that the pin's level there is a free value, the environment's (log 13, DEDUCED). -/
def Obligations.DataOutWritesLatch : Prop :=
  ∀ (b : Bool) (s : State), s.platformTakes 1 →
    ∃ t : State, exec (.dataOut b) s = .next t ∧
      t = { s.used 1 0 with
        lines := { s.lines with lat := { s.lines.lat with data := .holds (if b then .high else .low) } }
        txn := s.txn.advance 1
        hist := s.hist ++ [.drive .data (if b then .high else .low)] } ∧
      (s.lines.dir.data = .holds .out → t.pin .data = if b then .high else .low) ∧
      (s.lines.dir.data = .holds .inp → t.pin .data = Config.undrivenPin .data t.leafDraws)

/-- From R24 and R82: one sample, answered by the environment whatever the direction of the line and the latch; no field
of the record changes but the history and the position. The model's choice: the answer is the next entry of a list in
State, which is used up, and past its end a free value (log 3, DESIGN CHOICE). -/
def Obligations.DataInSamplesEnvironment : Prop :=
  ∀ s : State, s.platformTakes 1 →
    exec .dataIn s = .next { s.used 1 1 with
      txn := s.txn.advance 1, hist := s.hist ++ [.sample .data (s.sampleLevel 0)] }

/-- R85: `EN_N` goes Low, so `selected` becomes true; in every transfer it is event 8, the next event is the drive
of the first command bit, and one delay after that comes the first rising edge under select. -/
def Obligations.SelectDrivesEnableLow : Prop :=
  (∀ s : State, s.platformTakes 1 →
    ∃ t : State, exec .select s = .next t ∧ t.selected = true ∧
      t = { s.used 1 0 with
        lines := { s.lines with lat := { s.lines.lat with enN := .holds .low } }
        txn := s.txn.advance 1
        hist := s.hist ++ [.drive .enN .low] }) ∧
    ∀ (c : CmdWord) (d : DataWord) (answer : Nat → Level),
      ((transferEvents c d answer).drop 8).take 4 =
        [.drive .enN .low, .drive .data (lvl (c.getLsbD 8)), .delay, .drive .clk .high]

/-- R86: `EN_N` goes High, so `selected` becomes false; in a transfer it follows the settle delay, event 160 of a
write and 165 of a read; primitive 8 of INIT is the same drive. -/
def Obligations.UnselectDrivesEnableHigh : Prop :=
  (∀ s : State, s.platformTakes 1 →
    ∃ t : State, exec .unselect s = .next t ∧ t.selected = false ∧
      t = { s.used 1 0 with
        lines := { s.lines with lat := { s.lines.lat with enN := .holds .high } }
        txn := s.txn.advance 1
        hist := s.hist ++ [.drive .enN .high] }) ∧
    (∀ (c : CmdWord) (d : DataWord) (answer : Nat → Level),
      (transferEvents c d answer)[if c.getLsbD 7 then 165 else 160]? = some (.drive .enN .high) ∧
        (transferEvents c d answer)[if c.getLsbD 7 then 164 else 159]? = some .delay) ∧
    initEvents[8]? = some (.drive .enN .high)

/-- R87: `DATA` becomes an input and the latch keeps its value, `lvl(tx_cmd[0])` at that point of a read; it is
event 63 of a read, after the ninth command sample and before the turnaround pulse, and never runs in a write. -/
def Obligations.DirInTurnsDataToInput : Prop :=
  (∀ s : State, s.platformTakes 1 →
    exec .dirIn s = .next { s.used 1 0 with
      lines := { s.lines with dir := { s.lines.dir with data := .holds .inp } }
      txn := s.txn.advance 1
      hist := s.hist ++ [.setDir .data .inp] }) ∧
    ∀ (c : CmdWord) (d : DataWord) (answer : Nat → Level),
      (c.getLsbD 7 = true →
        ((transferEvents c d answer).drop 62).take 6 =
          [.sample .data (answer 8), .setDir .data .inp, .delay, .drive .clk .high, .delay, .drive .clk .low] ∧
        (((transferEvents c d answer).take 63).filterMap Event.dataDriven).getLast? = some (lvl (c.getLsbD 0)) ∧
        (transferEvents c d answer).count (.setDir .data .inp) = 1) ∧
      (c.getLsbD 7 = false → .setDir .data .inp ∉ transferEvents c d answer)

/-- From R15, R18 and R88: `DATA` becomes an output; event 161 of a write and 166 of a read, right after UNSELECT, where
the last bit driven is `tx_data[0]`; on a line that is an output already it only adds the event. A choice: that the pin
takes the latch when the line becomes an output again, as D7 has it (log 14, PRESUMED and unsafe). -/
def Obligations.DirOutTurnsDataToOutput : Prop :=
  (∀ s : State, s.platformTakes 1 →
    ∃ t : State, exec .dirOut s = .next t ∧
      t = { s.used 1 0 with
        lines := { s.lines with dir := { s.lines.dir with data := .holds .out } }
        txn := s.txn.advance 1
        hist := s.hist ++ [.setDir .data .out] } ∧
      (∀ v, s.lines.lat.data = .holds v → t.pin .data = v) ∧
      (s.lines.dir.data = .holds .out → t.lines = s.lines)) ∧
    ∀ (c : CmdWord) (d : DataWord) (answer : Nat → Level),
      ((transferEvents c d answer).drop (if c.getLsbD 7 then 165 else 160)).take 2 =
          [.drive .enN .high, .setDir .data .out] ∧
        (((transferEvents c d answer).take (if c.getLsbD 7 then 166 else 161)).filterMap Event.dataDriven).getLast? =
          some (lvl (d.getLsbD 0))

/-- R83: the bit is driven before the clock rises and sampled after it falls, six primitives, whatever the
direction of the line. -/
def Obligations.ExchangeBitDrivesThenSamples : Prop :=
  ∀ (b : Bool) (s : State), s.platformTakes 6 →
    exec (.exchangeBit b) s = .next { s.used 6 1 with
      lines := { s.lines with
        lat := { s.lines.lat with clk := .holds .low, data := .holds (if b then .high else .low) } }
      txn := s.txn.advance 6
      hist := s.hist ++ [.drive .data (if b then .high else .low), .delay, .drive .clk .high, .delay,
        .drive .clk .low, .sample .data (s.sampleLevel 0)] }

/-- R84: `6n` primitives, the bits `n-1 .. 0` of the value driven most significant first, the sampled number in
`rx_cmd` for `n` = 9 and in `rx_data` for `n` = 16; nothing but the clock and data latches, that accumulator and the
position changes. -/
def Obligations.ExchangeWordShiftsInSamples : Prop :=
  ∀ (value : BitVec 16) (s : State),
    (s.platformTakes 54 →
      exec (.exchangeWord value 9) s = .next { s.used 54 9 with
        lines := { s.lines with
          lat := { s.lines.lat with clk := .holds .low, data := .holds (lvl (value.getLsbD 0)) } }
        txn := { s.txn.advance 54 with rxCmd := .holds (BitVec.ofNat 9 (sampledWord 9 s.sampleLevel)) }
        hist := s.hist ++ wordEvents value 9 s.sampleLevel }) ∧
    (s.platformTakes 96 →
      exec (.exchangeWord value 16) s = .next { s.used 96 16 with
        lines := { s.lines with
          lat := { s.lines.lat with clk := .holds .low, data := .holds (lvl (value.getLsbD 0)) } }
        txn := { s.txn.advance 96 with rxData := .holds (BitVec.ofNat 16 (sampledWord 16 s.sampleLevel)) }
        hist := s.hist ++ wordEvents value 16 s.sampleLevel })

/-- R90: where every sample answers the bit just driven, a word exchange returns the word. -/
def Obligations.LoopbackReturnsTheWord : Prop :=
  ∀ (value : BitVec 16) (s : State),
    (s.platformTakes 54 → (∀ t < 9, s.sampleLevel t = lvl (value.getLsbD (8 - t))) →
      ∃ t : State, exec (.exchangeWord value 9) s = .next t ∧ t.txn.rxCmd = .holds (value.setWidth 9)) ∧
    (s.platformTakes 96 → (∀ t < 16, s.sampleLevel t = lvl (value.getLsbD (15 - t))) →
      ∃ t : State, exec (.exchangeWord value 16) s = .next t ∧ t.txn.rxData = .holds value)

/-! ### INIT (40_initialize.md) -/

/-- R65: the state after a completed INIT, from every mode but `Busy` (R66). -/
def Obligations.InitLeavesReadyState : Prop :=
  ∀ s : State, s.isBusy = false → s.platformTakes 10 →
    ∃ t : State, exec .init s = .next t ∧ t = s.afterInitRequest ∧
      t.mode = .ready ∧ t.lines.cfg.clk = true ∧ t.lines.cfg.data = true ∧
      (∀ l, t.lines.dir.get l = .holds .out) ∧
      t.lines.lat = ⟨.holds .low, .holds .low, .holds .high, .holds .high⟩ ∧
      t.selected = false ∧ t.chipInReset = false ∧
      t.txn = ⟨.unspec, .unspec, .unspec, .unspec, .unspec, .unspec⟩ ∧
      t.hist = s.hist ++ [.cfg .clk, .cfg .data, .setDir .clk .out, .setDir .data .out, .drive .clk .low,
        .drive .data .low, .setDir .enN .out, .setDir .rstN .out, .drive .enN .high, .drive .rstN .high] ∧
      t.responses = s.responses ++ [.done]

/-- R67: from power-on, between primitive 6 and primitive 8 of INIT the enable line is an output whose latch is
`unspec`, and between 7 and 9 likewise the reset line. -/
def Obligations.InitLevelsUndefinedInWindow : Prop :=
  ∀ s : State, s.mode = .uninit → s.lines = .powerOn → s.inbox = [⟨.init, .serialised⟩] → s.platformTakes 9 →
    ∃ t8 t9 t10 : State,
      Host.Core.run Sys2Proof.core 8 s = .next t8 ∧ Host.Core.run Sys2Proof.core 9 s = .next t9 ∧
      Host.Core.run Sys2Proof.core 10 s = .next t10 ∧
      (t8.lines.dir.enN = .holds .out ∧ t8.lines.lat.enN = .unspec) ∧
      (t9.lines.dir.enN = .holds .out ∧ t9.lines.lat.enN = .unspec) ∧
      (t9.lines.dir.rstN = .holds .out ∧ t9.lines.lat.rstN = .unspec) ∧
      (t10.lines.lat.enN = .holds .high ∧ t10.lines.dir.rstN = .holds .out ∧ t10.lines.lat.rstN = .unspec)

/-! ### TRANSFER and TRANSFER_SEGMENTS (41_transfer.md, 43_multi_segment.md) -/

/-- R71: XFER.W from mode `Ready`, all of its effect: 166 primitives, the 25 bits, the response. -/
def Obligations.XferWriteRunsToReady : Prop :=
  ∀ (r : BitVec 1) (a : RegAddr) (v : DataWord) (s : State), s.mode = .ready → s.platformTakes 166 →
    exec (.xferW r a v) s = .next (s.afterTransfer (commandWord r false a) v)

/-- R72: XFER.R from mode `Ready`, all of its effect: 171 primitives, the turnaround, the 25 bits, the response. -/
def Obligations.XferReadRunsToReady : Prop :=
  ∀ (r : BitVec 1) (a : RegAddr) (v : DataWord) (s : State), s.mode = .ready → s.platformTakes 171 →
    exec (.xferR r a v) s = .next (s.afterTransfer (commandWord r true a) v)

/-- From R18, R31, R74 and R136: the state after a completed transaction of either kind, from a state that meets the
invariant. A choice, for a read: the clause on the data pin's level, which rests on D7 (log 14, PRESUMED and unsafe);
the latch it shows is R74's. -/
def Obligations.StateAfterTransaction : Prop :=
  ∀ (read : Bool) (r : BitVec 1) (a : RegAddr) (v : DataWord) (s : State),
    s.inv → s.mode = .ready → s.platformTakes (transferLength read) →
    ∃ t : State, exec (xfer read r a v) s = .next t ∧
      t.mode = .ready ∧ t.lines.lat.clk = .holds .low ∧ t.lines.lat.enN = .holds .high ∧
      t.lines.lat.rstN = s.lines.lat.rstN ∧ t.lines.lat.rstN = .holds .high ∧
      t.lines.dir.data = .holds .out ∧ t.lines.dir = s.lines.dir ∧ (∀ l, t.lines.dir.get l = .holds .out) ∧
      t.lines.lat.data = .holds (if v.getLsbD 0 then .high else .low) ∧
      t.pin .data = (if v.getLsbD 0 then .high else .low) ∧
      t.selected = false ∧ t.lines.cfg = s.lines.cfg ∧
      t.txn = ⟨.unspec, .unspec, .unspec, .unspec, .unspec, .unspec⟩

/-- R73: the two result words are the numbers that the 25 samples spell, for both kinds alike; under loopback they
are the words sent. -/
def Obligations.ResultIsTheSampledBits : Prop :=
  ∀ (read : Bool) (r : BitVec 1) (a : RegAddr) (v : DataWord) (s : State),
    s.mode = .ready → s.platformTakes (transferLength read) →
    ∃ t : State, exec (xfer read r a v) s = .next t ∧
      (∃ echo data : HostWord, t.responses = s.responses ++ [.words echo data] ∧
        echo.toNat = ((List.range 9).map fun k => (bitOf (s.sampleLevel k)).toNat * 2 ^ (8 - k)).sum ∧
        data.toNat = ((List.range 16).map fun k => (bitOf (s.sampleLevel (9 + k))).toNat * 2 ^ (15 - k)).sum) ∧
      ((∀ k < 25, s.sampleLevel k = lvl ((frame25 (commandWord r read a) v).getLsbD (24 - k))) →
        t.responses = s.responses ++ [.words ((commandWord r read a).setWidth 16) v])

/-- R73: nothing but the samples enters the result: not the words sent, not the direction, not the state. -/
def Obligations.ResultDependsOnSamplesOnly : Prop :=
  ∀ (read read' : Bool) (r r' : BitVec 1) (a a' : RegAddr) (v v' : DataWord) (s s' : State),
    s.mode = .ready → s'.mode = .ready → s.platformTakes (transferLength read) →
    s'.platformTakes (transferLength read') → (∀ k < 25, s.sampleLevel k = s'.sampleLevel k) →
    ∃ (t t' : State) (answer : Response), exec (xfer read r a v) s = .next t ∧ exec (xfer read' r' a' v') s' = .next t' ∧
      t.responses = s.responses ++ [answer] ∧ t'.responses = s'.responses ++ [answer]

/-- R72 corner (e), R52: what the environment answers changes no event of a transaction but the sampled levels
themselves, so the echo of the direction bit steers nothing. -/
def Obligations.SamplesSteerNothing : Prop :=
  ∀ (read : Bool) (r : BitVec 1) (a : RegAddr) (v : DataWord) (s s' : State),
    s.mode = .ready → s'.mode = .ready → s.platformTakes (transferLength read) →
    s'.platformTakes (transferLength read) →
    ∃ (t t' : State) (new new' : List Event),
      exec (xfer read r a v) s = .next t ∧ exec (xfer read r a v) s' = .next t' ∧
      t.hist = s.hist ++ new ∧ t'.hist = s'.hist ++ new' ∧ new.map Event.erased = new'.map Event.erased

/-- R75: the counts of a transaction. -/
def Obligations.EventCountsOfTransaction : Prop :=
  ∀ (read : Bool) (r : BitVec 1) (a : RegAddr) (v : DataWord) (s : State),
    s.mode = .ready → s.platformTakes (transferLength read) →
    ∃ (t : State) (new : List Event), exec (xfer read r a v) s = .next t ∧ t.hist = s.hist ++ new ∧
      new.length = (if read then 171 else 166) ∧
      new.count .delay = (if read then 59 else 57) ∧
      (new.countP fun e => match e with | .drive _ _ => true | _ => false) = (if read then 85 else 83) ∧
      new.count (.drive .clk .high) = (if read then 29 else 28) ∧
      ((new.take (if read then 165 else 160)).drop 9).count (.drive .clk .high) = (if read then 26 else 25) ∧
      ((new.take (if read then 165 else 160)).drop 63).count (.drive .clk .high) = (if read then 17 else 16) ∧
      (new.take 8).count (.drive .clk .high) = 2 ∧
      (new.drop (if read then 166 else 161)).count (.drive .clk .high) = 1 ∧
      new.count (.drive .data .low) + new.count (.drive .data .high) = 25 ∧
      new.count (.drive .enN .low) + new.count (.drive .enN .high) = 2 ∧
      new.count (.sample .data .low) + new.count (.sample .data .high) = 25 ∧
      new.count (.setDir .data .inp) = (if read then 1 else 0) ∧
      new.count (.setDir .data .out) = 1 ∧
      ∀ l, l = .rstN → ∀ v d, .cfg l ∉ new ∧ .setDir l d ∉ new ∧ .drive l v ∉ new ∧ .sample l v ∉ new

/-- R76: the flat list of a transaction, entry by entry. -/
def Obligations.FlatListOfTransaction : Prop :=
  ∀ (c : CmdWord) (d : DataWord) (read : Bool), flatList read c d ((transferSlots c d read).map Slot.leaf)

/-- R51: the bits driven on `DATA` in a transaction are the 25 bits of `cmd ++ data`, in wire order. -/
def Obligations.WireOrderIsTheFrame : Prop :=
  ∀ (read : Bool) (r : BitVec 1) (a : RegAddr) (v : DataWord) (s : State),
    s.mode = .ready → s.platformTakes (transferLength read) →
    ∃ (t : State) (new : List Event), exec (xfer read r a v) s = .next t ∧ t.hist = s.hist ++ new ∧
      new.filterMap Event.dataDriven =
        (List.range 25).map fun k => lvl ((frame25 (commandWord r read a) v).getLsbD (24 - k))

/-- R77: where the direction of `DATA` changes in a transaction. -/
def Obligations.DirectionChangesOfTransaction : Prop :=
  ∀ (read : Bool) (r : BitVec 1) (a : RegAddr) (v : DataWord) (s : State),
    s.mode = .ready → s.platformTakes (transferLength read) →
    ∃ (t : State) (new : List Event), exec (xfer read r a v) s = .next t ∧ t.hist = s.hist ++ new ∧
      (read = false → .setDir .data .inp ∉ new) ∧
      (read = true → ∃ before turn after, new = before ++ [.setDir .data .inp] ++ turn ++ after ∧
        .setDir .data .inp ∉ before ++ turn ++ after ∧ before.countP Event.isSample = 9 ∧
        turn = [.delay, .drive .clk .high, .delay, .drive .clk .low] ∧
        (∃ b, after.head? = some (.drive .data b)) ∧ after.countP Event.isSample = 16) ∧
      ∃ before after, new = before ++ [.setDir .data .out] ++ after ∧ before.countP Event.isSample = 25 ∧
        .setDir .data .out ∉ before ++ after ∧ .setDir .data .inp ∉ after ∧ after.countP Event.isSample = 0

/-- R70: NOP.T gives the caller's words back and changes nothing else, in every mode but `Busy`; a TRANSFER of any
other count than 2 is it. -/
def Obligations.MisshapenTransferIsIgnored : Prop :=
  ∀ (words : List HostWord) (s : State), words.length ≠ 2 →
    exec (.transfer words) s = exec (.nopT words) s ∧
      (s.isBusy = false → exec (.nopT words) s = .next { s with responses := s.responses ++ [.ignored words] }) ∧
      (s.isBusy = true → exec (.nopT words) s = .refused .requestWhileBusy)

/-- R94: NOP.S gives the caller's segments back and changes nothing else; a TRANSFER_SEGMENTS of any other count
than 1 is it. -/
def Obligations.MisshapenSegmentsAreIgnored : Prop :=
  ∀ (segs : List (List HostWord)) (s : State), segs.length ≠ 1 →
    exec (.transferSegments segs) s = exec (.nopS segs) s ∧
      (s.isBusy = false → exec (.nopS segs) s = .next { s with responses := s.responses ++ [.ignoredSegments segs] }) ∧
      (s.isBusy = true → exec (.nopS segs) s = .refused .requestWhileBusy)

/-- R68: a well-shaped TRANSFER from mode `Ready` runs to its end, the words latched as R55 has it; so does the
TRANSFER_SEGMENTS of it (R93). -/
def Obligations.TransferOfTwoWordsCompletes : Prop :=
  ∀ (w0 w1 : HostWord) (s : State), s.mode = .ready → s.platformTakes (transferLength (w0.getLsbD 7)) →
    exec (.transfer [w0, w1]) s = .next (s.afterTransfer (w0.setWidth 9) w1) ∧
      exec (.transferSegments [[w0, w1]]) s = .next (s.afterTransfer (w0.setWidth 9) w1)

/-- R68: what TRANSFER does in every mode and for every shape, in the order of its guards; a well-shaped one in mode
`Ready` is the transaction its first word selects, on `words[0][8:0]` and `words[1]`. -/
def Obligations.TransferGuardsInOrder : Prop :=
  ∀ (words : List HostWord) (s : State),
    (s.isBusy = true → exec (.transfer words) s = .refused .requestWhileBusy) ∧
    (s.isBusy = false → words.length ≠ 2 → exec (.transfer words) s = exec (.nopT words) s) ∧
    (∀ w0 w1, words = [w0, w1] → s.mode = .uninit → exec (.transfer words) s = .refused .transferBeforeInit) ∧
    (∀ w0 w1, words = [w0, w1] → s.mode = .faulted → exec (.transfer words) s = .refused .transferAfterFault) ∧
    (∀ w0 w1, words = [w0, w1] → s.mode = .ready →
      exec (.transfer words) s = exec (decode (.transfer [w0, w1])) s ∧
        (s.platformTakes (transferLength (w0.getLsbD 7)) →
          exec (.transfer words) s = .next (s.afterTransfer (w0.setWidth 9) w1)))

/-- R93, R95: TRANSFER_SEGMENTS of one segment is exactly TRANSFER of it, in every mode and for every word list; of
any other count it is NOP.S. -/
def Obligations.SegmentsAddNothing : Prop :=
  ∀ (segs : List (List HostWord)) (s : State),
    (s.isBusy = true → exec (.transferSegments segs) s = .refused .requestWhileBusy) ∧
    (∀ words, segs = [words] → exec (.transferSegments segs) s = exec (.transfer words) s) ∧
    (segs.length ≠ 1 → exec (.transferSegments segs) s = exec (.nopS segs) s)

/-! ### Faults and refusals (60_exceptions.md) -/

/-- R115: the requests the model gives no meaning. -/
def Obligations.RequestsWithoutMeaningAreRefused : Prop :=
  (∀ (q : Request) (s : State), s.isBusy = true → exec (decode q) s = .refused .requestWhileBusy) ∧
    (∀ (w0 w1 : HostWord) (s : State), s.mode = .uninit →
      exec (decode (.transfer [w0, w1])) s = .refused .transferBeforeInit ∧
        exec (decode (.transferSegments [[w0, w1]])) s = .refused .transferBeforeInit) ∧
    ∀ (w0 w1 : HostWord) (s : State), s.mode = .faulted →
      exec (decode (.transfer [w0, w1])) s = .refused .transferAfterFault ∧
        exec (decode (.transferSegments [[w0, w1]])) s = .refused .transferAfterFault

/-- R104, R97, R98: an accepted INIT or transaction whose primitive number `k` fails: the history holds exactly the
events of the primitives before it, no later primitive runs, the mode is `Faulted`, latches and directions are
`unspec`, `cfg` is kept, and the response names the primitive and its line. -/
def Obligations.LeafFailureIsPrecise : Prop :=
  ∀ (i : Instr) (s : State) (k : Nat) (e : Event),
    (i = .init ∧ s.isBusy = false) ∨ (s.mode = .ready ∧ ∃ read r a v, i = xfer read r a v) →
    (requestEvents i s.sampleLevel)[k]? = some e → s.platformFailsAt k →
    exec i s = .next (s.afterFault ((requestEvents i s.sampleLevel).take k) e)

/-- R97: the same fault in every sub-protocol and micro-operation, at its first primitive. -/
def Obligations.MicroOperationFaults : Prop :=
  ∀ (i : Instr) (s : State) (e : Event), s.platformFailsAt 0 →
    (i, e) ∈ [(Instr.settle, Event.delay), (.clockPulse, .delay), (.dataIn, .sample .data (s.sampleLevel 0)),
      (.select, .drive .enN .low), (.unselect, .drive .enN .high), (.dirIn, .setDir .data .inp),
      (.dirOut, .setDir .data .out), (.dataOut false, .drive .data .low), (.dataOut true, .drive .data .high),
      (.exchangeBit false, .drive .data .low), (.exchangeBit true, .drive .data .high)] →
    exec i s = .next (s.afterFault [] e)

/-- A step stops only where the spec has it: a primitive that never returns (R114), a request in `Busy`, a
transaction before INIT or after a fault (R115). -/
def Obligations.StepStopsOnlyAsSpecified : Prop :=
  ∀ s : State,
    (∀ f, step s = .fault f → s.isBusy = true ∧ s.leafAnswer 0 = .hangs) ∧
    ∀ r, step s = .refused r →
      (r = .requestWhileBusy ∧ s.isBusy = true) ∨ (r = .transferBeforeInit ∧ s.mode = .uninit) ∨
        (r = .transferAfterFault ∧ s.mode = .faulted)

/-! ### The machine's step (00_scope.md R7, 10_state.md R24, 70_reset_and_hazards.md R140) -/

/-- A step runs the decoded operation. With no request in progress and a call to come, the step is `exec` of what
the call decodes to, unless that is an INIT or a transaction that is accepted: then the step stands it before its
first primitive, with its operands latched, and the steps after it run it (`StepsRunTheRequest`). With no call to
come nothing changes. A call made at once in `Busy` is `exec` of what it decodes to. -/
def Obligations.StepRunsDecodedOperation : Prop :=
  (∀ (s : State) (c : HostCall) (rest : List HostCall), s.isBusy = false → s.inbox = c :: rest →
    (∀ t, begins (decode c.request) { s with inbox := rest } = some t → step s = .next t) ∧
    (begins (decode c.request) { s with inbox := rest } = none →
      step s = exec (decode c.request) { s with inbox := rest }) ∧
    (decode c.request).wf = true) ∧
  (∀ s : State, s.isBusy = false → s.inbox = [] → step s = .next s) ∧
  ∀ (s : State) (q : Request) (rest : List HostCall), s.isBusy = true → s.inbox = ⟨q, .overlapping⟩ :: rest →
    step s = exec (decode q) { s with inbox := rest }

/-- R24: in a transaction each step completes the primitive at `S.seq`, whose event is that entry of the
transaction's events, and adds 1 to the position; the last one leaves mode `Ready`. -/
def Obligations.StepCompletesOnePrimitive : Prop :=
  ∀ (c : CmdWord) (d : DataWord) (k : Nat) (s : State), s.mode = .busy .transfer → waits s.inbox = true →
    s.txn.txCmd = .holds c → s.txn.txData = .holds d → s.txn.directionRead = .holds (c.getLsbD 7) →
    s.txn.seq = .holds k → k < transferLength (c.getLsbD 7) → s.platformTakes 1 →
    ∃ (t : State) (e : Event), step s = .next t ∧
      (transferEvents c d fun _ => s.sampleLevel 0)[k]? = some e ∧ t.hist = s.hist ++ [e] ∧
      (k + 1 < transferLength (c.getLsbD 7) → t.mode = .busy .transfer ∧ t.txn.seq = .holds (k + 1)) ∧
      (k + 1 = transferLength (c.getLsbD 7) → t.mode = .ready)

/-- The steps of an accepted request come to what `exec` says of it: from the step that takes the call on, the
machine is in `Busy` until, within 172 steps, it stands in `exec`'s outcome; after exactly 1 + 10, 166 or 171 steps
where the platform performs every primitive. -/
def Obligations.StepsRunTheRequest : Prop :=
  ∀ (s : State) (c : HostCall) (rest : List HostCall) (t0 : State),
    s.isBusy = false → s.inbox = c :: rest → waits rest = true →
    begins (decode c.request) { s with inbox := rest } = some t0 →
    (∃ n, 1 < n ∧ n ≤ 172 ∧
      Host.Core.run Sys2Proof.core n s = exec (decode c.request) { s with inbox := rest } ∧
      ∀ j, 0 < j → j < n → ∃ t : State, Host.Core.run Sys2Proof.core j s = .next t ∧ t.isBusy = true) ∧
    (s.platformTakes (requestEvents (decode c.request) s.sampleLevel).length →
      Host.Core.run Sys2Proof.core (1 + (requestEvents (decode c.request) s.sampleLevel).length) s =
        exec (decode c.request) { s with inbox := rest })

/-- R140: from every state of a request in progress that meets the invariant, the request is over within the
primitives that are left, or the platform did not return. -/
def Obligations.AcceptedRequestEnds : Prop :=
  ∀ s : State, s.inv → s.isBusy = true → waits s.inbox = true →
    ∃ n ≤ 171, match Host.Core.run Sys2Proof.core n s with
      | .next t => t.isBusy = false
      | .fault (.leafNeverReturns _ _) => True
      | .refused _ => False
end

