-- ==== Sys2Proof/Laws/Decode.lean ====
section
/-!
SUPPORT. The fields of a command word, each read back from the word the three fields make (30_encoding.md R49).
-/

namespace Sys2Proof

/-- The bits of a command word, field by field. -/
theorem getLsbD_commandWord (r : BitVec 1) (d : Bool) (a : RegAddr) (i : Nat) :
    (commandWord r d a).getLsbD i =
      if i < 7 then a.getLsbD i else if i < 8 then (BitVec.ofBool d).getLsbD (i - 7) else r.getLsbD (i - 8) := by
  show BitVec.getLsbD (r ++ (BitVec.ofBool d ++ a)) i = _
  rw [BitVec.getLsbD_append, BitVec.getLsbD_append]
  rcases Nat.lt_or_ge i 7 with h | h
  · have h8 : i < 1 + 7 := by omega
    simp [h, h8]
  · rcases Nat.lt_or_ge i 8 with h8 | h8
    · have e : i < 1 + 7 := h8
      simp [Nat.not_lt.mpr h, h8]
    · have e : ¬ i < 1 + 7 := by omega
      simp [Nat.not_lt.mpr h, Nat.not_lt.mpr h8]

@[simp] theorem directionBit_commandWord (r : BitVec 1) (d : Bool) (a : RegAddr) :
    directionBit (commandWord r d a) = d := by
  simp only [directionBit, getLsbD_commandWord]
  cases d <;> rfl

@[simp] theorem reservedBit_commandWord (r : BitVec 1) (d : Bool) (a : RegAddr) :
    reservedBit (commandWord r d a) = r := by
  apply BitVec.eq_of_getLsbD_eq
  intro i hi
  obtain rfl : i = 0 := by omega
  rw [reservedBit, BitVec.getLsbD_extractLsb', getLsbD_commandWord]
  simp

@[simp] theorem addrField_commandWord (r : BitVec 1) (d : Bool) (a : RegAddr) :
    addrField (commandWord r d a) = a := by
  apply BitVec.eq_of_getLsbD_eq
  intro i hi
  rw [addrField, BitVec.getLsbD_extractLsb', getLsbD_commandWord]
  simp [hi]

@[simp] theorem cmdField_setWidth (c : CmdWord) : cmdField (c.setWidth 16) = c := by
  simp [cmdField]

end Sys2Proof
end

