-- ==== Sys2Proof/Laws/State.lean ====
section
/-!
SUPPORT. One lemma per field per update of the state: what each shared update writes and what it leaves alone.
-/

namespace Sys2Proof.Machine

variable {α : Type}

@[simp] theorem Lines.get_all (v : α) (l : Line) : (Lines.all v).get l = v := by cases l <;> rfl

@[simp] theorem Lines.get_set_same (r : Lines α) (l : Line) (v : α) : (r.set l v).get l = v := by cases l <;> rfl

theorem Lines.get_set_other (r : Lines α) {l m : Line} (v : α) (h : m ≠ l) : (r.set l v).get m = r.get m := by
  cases l <;> cases m <;> first | rfl | exact absurd rfl h

@[simp] theorem Lines.set_clk (r : Lines α) (v : α) : r.set .clk v = { r with clk := v } := rfl
@[simp] theorem Lines.set_data (r : Lines α) (v : α) : r.set .data v = { r with data := v } := rfl
@[simp] theorem Lines.set_enN (r : Lines α) (v : α) : r.set .enN v = { r with enN := v } := rfl
@[simp] theorem Lines.set_rstN (r : Lines α) (v : α) : r.set .rstN v = { r with rstN := v } := rfl
@[simp] theorem Lines.get_clk (r : Lines α) : r.get .clk = r.clk := rfl
@[simp] theorem Lines.get_data (r : Lines α) : r.get .data = r.data := rfl
@[simp] theorem Lines.get_enN (r : Lines α) : r.get .enN = r.enN := rfl
@[simp] theorem Lines.get_rstN (r : Lines α) : r.get .rstN = r.rstN := rfl

@[simp] theorem LineRegs.apply_cfgFast (l : Line) (r : LineRegs) :
    r.apply (.cfgFast l) = { r with cfg := r.cfg.set l true } := rfl
@[simp] theorem LineRegs.apply_setDir (l : Line) (d : Dir) (r : LineRegs) :
    r.apply (.setDir l d) = { r with dir := r.dir.set l (.holds d) } := rfl
@[simp] theorem LineRegs.apply_drive (l : Line) (v : Level) (r : LineRegs) :
    r.apply (.drive l v) = { r with lat := r.lat.set l (.holds v) } := rfl
@[simp] theorem LineRegs.apply_sample (l : Line) (r : LineRegs) : r.apply (.sample l) = r := rfl
@[simp] theorem LineRegs.apply_delay (r : LineRegs) : r.apply .delay = r := rfl
@[simp] theorem LineRegs.forget_lat (r : LineRegs) : r.forget.lat = Lines.all .unspec := rfl
@[simp] theorem LineRegs.forget_dir (r : LineRegs) : r.forget.dir = Lines.all .unspec := rfl
@[simp] theorem LineRegs.forget_cfg (r : LineRegs) : r.forget.cfg = r.cfg := rfl

@[simp] theorem Reg.read_holds (free v : α) : (Reg.holds v).read free = v := rfl
@[simp] theorem Reg.read_unspec (free : α) : (Reg.unspec : Reg α).read free = free := rfl
@[simp] theorem Reg.update_holds (f : α → α) (v : α) : (Reg.holds v).update f = .holds (f v) := rfl
@[simp] theorem Reg.update_unspec (f : α → α) : (Reg.unspec : Reg α).update f = .unspec := rfl

@[simp] theorem Slot.leaf_prim (p : Prim) : (Slot.prim p).leaf = p := rfl
@[simp] theorem Slot.leaf_opens (x : Rx) (p : Prim) : (Slot.opens x p).leaf = p := rfl
@[simp] theorem Slot.leaf_takes (x : Rx) : (Slot.takes x).leaf = .sample .data := rfl

@[simp] theorem State.leafTried_mode (s : State) :
    (s.leafTried).mode = s.mode := rfl
@[simp] theorem State.leafTried_lines (s : State) :
    (s.leafTried).lines = s.lines := rfl
@[simp] theorem State.leafTried_txn (s : State) :
    (s.leafTried).txn = s.txn := rfl
@[simp] theorem State.leafTried_hist (s : State) :
    (s.leafTried).hist = s.hist := rfl
@[simp] theorem State.leafTried_responses (s : State) :
    (s.leafTried).responses = s.responses := rfl
@[simp] theorem State.leafTried_inbox (s : State) :
    (s.leafTried).inbox = s.inbox := rfl
@[simp] theorem State.leafTried_platform (s : State) :
    (s.leafTried).platform = s.platform.tail := rfl
@[simp] theorem State.leafTried_samples (s : State) :
    (s.leafTried).samples = s.samples := rfl
@[simp] theorem State.leafTried_leafDraws (s : State) :
    (s.leafTried).leafDraws = s.leafDraws + 1 := rfl
@[simp] theorem State.leafTried_sampleDraws (s : State) :
    (s.leafTried).sampleDraws = s.sampleDraws := rfl

@[simp] theorem takeLeafFault_mode (p : Prim) (s : State) :
    (takeLeafFault p s).mode = .faulted := rfl
@[simp] theorem takeLeafFault_lines (p : Prim) (s : State) :
    (takeLeafFault p s).lines = s.lines.forget := rfl
@[simp] theorem takeLeafFault_txn (p : Prim) (s : State) :
    (takeLeafFault p s).txn = .unspec := rfl
@[simp] theorem takeLeafFault_hist (p : Prim) (s : State) :
    (takeLeafFault p s).hist = s.hist := rfl
@[simp] theorem takeLeafFault_responses (p : Prim) (s : State) :
    (takeLeafFault p s).responses = s.responses ++ [.fault ⟨p.name, p.line⟩] := rfl
@[simp] theorem takeLeafFault_inbox (p : Prim) (s : State) :
    (takeLeafFault p s).inbox = s.inbox := rfl
@[simp] theorem takeLeafFault_platform (p : Prim) (s : State) :
    (takeLeafFault p s).platform = s.platform := rfl
@[simp] theorem takeLeafFault_samples (p : Prim) (s : State) :
    (takeLeafFault p s).samples = s.samples := rfl
@[simp] theorem takeLeafFault_leafDraws (p : Prim) (s : State) :
    (takeLeafFault p s).leafDraws = s.leafDraws := rfl
@[simp] theorem takeLeafFault_sampleDraws (p : Prim) (s : State) :
    (takeLeafFault p s).sampleDraws = s.sampleDraws := rfl

@[simp] theorem completeJob_mode (job : Job) (s : State) :
    (completeJob job s).mode = .ready := rfl
@[simp] theorem completeJob_lines (job : Job) (s : State) :
    (completeJob job s).lines = s.lines := rfl
@[simp] theorem completeJob_txn (job : Job) (s : State) :
    (completeJob job s).txn = .unspec := rfl
@[simp] theorem completeJob_hist (job : Job) (s : State) :
    (completeJob job s).hist = s.hist := rfl
@[simp] theorem completeJob_responses (job : Job) (s : State) :
    (completeJob job s).responses = s.responses ++ [jobResponse job s] := rfl
@[simp] theorem completeJob_inbox (job : Job) (s : State) :
    (completeJob job s).inbox = s.inbox := rfl
@[simp] theorem completeJob_platform (job : Job) (s : State) :
    (completeJob job s).platform = s.platform := rfl
@[simp] theorem completeJob_samples (job : Job) (s : State) :
    (completeJob job s).samples = s.samples := rfl
@[simp] theorem completeJob_leafDraws (job : Job) (s : State) :
    (completeJob job s).leafDraws = s.leafDraws := rfl
@[simp] theorem completeJob_sampleDraws (job : Job) (s : State) :
    (completeJob job s).sampleDraws = s.sampleDraws := rfl

@[simp] theorem State.used_mode (n m : Nat) (s : State) :
    (s.used n m).mode = s.mode := rfl
@[simp] theorem State.used_lines (n m : Nat) (s : State) :
    (s.used n m).lines = s.lines := rfl
@[simp] theorem State.used_txn (n m : Nat) (s : State) :
    (s.used n m).txn = s.txn := rfl
@[simp] theorem State.used_hist (n m : Nat) (s : State) :
    (s.used n m).hist = s.hist := rfl
@[simp] theorem State.used_responses (n m : Nat) (s : State) :
    (s.used n m).responses = s.responses := rfl
@[simp] theorem State.used_inbox (n m : Nat) (s : State) :
    (s.used n m).inbox = s.inbox := rfl
@[simp] theorem State.used_platform (n m : Nat) (s : State) :
    (s.used n m).platform = s.platform.drop n := rfl
@[simp] theorem State.used_samples (n m : Nat) (s : State) :
    (s.used n m).samples = s.samples.drop m := rfl
@[simp] theorem State.used_leafDraws (n m : Nat) (s : State) :
    (s.used n m).leafDraws = s.leafDraws + n := rfl
@[simp] theorem State.used_sampleDraws (n m : Nat) (s : State) :
    (s.used n m).sampleDraws = s.sampleDraws + m := rfl

@[simp] theorem State.sampleTaken_mode (p : Prim) (s : State) : (s.sampleTaken p).mode = s.mode := by
  unfold State.sampleTaken; split <;> rfl
@[simp] theorem State.sampleTaken_lines (p : Prim) (s : State) : (s.sampleTaken p).lines = s.lines := by
  unfold State.sampleTaken; split <;> rfl
@[simp] theorem State.sampleTaken_txn (p : Prim) (s : State) : (s.sampleTaken p).txn = s.txn := by
  unfold State.sampleTaken; split <;> rfl
@[simp] theorem State.sampleTaken_hist (p : Prim) (s : State) : (s.sampleTaken p).hist = s.hist := by
  unfold State.sampleTaken; split <;> rfl
@[simp] theorem State.sampleTaken_responses (p : Prim) (s : State) : (s.sampleTaken p).responses = s.responses := by
  unfold State.sampleTaken; split <;> rfl
@[simp] theorem State.sampleTaken_inbox (p : Prim) (s : State) : (s.sampleTaken p).inbox = s.inbox := by
  unfold State.sampleTaken; split <;> rfl
@[simp] theorem State.sampleTaken_platform (p : Prim) (s : State) : (s.sampleTaken p).platform = s.platform := by
  unfold State.sampleTaken; split <;> rfl
@[simp] theorem State.sampleTaken_leafDraws (p : Prim) (s : State) : (s.sampleTaken p).leafDraws = s.leafDraws := by
  unfold State.sampleTaken; split <;> rfl

theorem State.sampleTaken_samples (p : Prim) (s : State) :
    (s.sampleTaken p).samples = if p.isSample then s.samples.tail else s.samples := by
  unfold State.sampleTaken; split <;> rfl
theorem State.sampleTaken_sampleDraws (p : Prim) (s : State) :
    (s.sampleTaken p).sampleDraws = if p.isSample then s.sampleDraws + 1 else s.sampleDraws := by
  unfold State.sampleTaken; split <;> rfl

@[simp] theorem Slot.commit_mode (sl : Slot) (s : State) :
    (sl.commit s).mode = s.mode := by
  simp [Slot.commit]
@[simp] theorem Slot.commit_lines (sl : Slot) (s : State) :
    (sl.commit s).lines = s.lines.apply sl.leaf := by
  simp [Slot.commit]
@[simp] theorem Slot.commit_txn (sl : Slot) (s : State) :
    (sl.commit s).txn = (sl.onTxn (s.sampleLevel 0) s.txn).advance 1 := by
  simp [Slot.commit, TxnRegs.advance]
@[simp] theorem Slot.commit_hist (sl : Slot) (s : State) :
    (sl.commit s).hist = s.hist ++ [sl.leaf.event (s.sampleLevel 0)] := by
  simp [Slot.commit]
@[simp] theorem Slot.commit_responses (sl : Slot) (s : State) :
    (sl.commit s).responses = s.responses := by
  simp [Slot.commit]
@[simp] theorem Slot.commit_inbox (sl : Slot) (s : State) :
    (sl.commit s).inbox = s.inbox := by
  simp [Slot.commit]
@[simp] theorem Slot.commit_platform (sl : Slot) (s : State) :
    (sl.commit s).platform = s.platform := by
  simp [Slot.commit]
@[simp] theorem Slot.commit_leafDraws (sl : Slot) (s : State) :
    (sl.commit s).leafDraws = s.leafDraws := by
  simp [Slot.commit]
theorem Slot.commit_samples (sl : Slot) (s : State) :
    (sl.commit s).samples = if sl.leaf.isSample then s.samples.tail else s.samples := by
  simp [Slot.commit, State.sampleTaken_samples]
theorem Slot.commit_sampleDraws (sl : Slot) (s : State) :
    (sl.commit s).sampleDraws = if sl.leaf.isSample then s.sampleDraws + 1 else s.sampleDraws := by
  simp [Slot.commit, State.sampleTaken_sampleDraws]

/-- Using up primitives first moves the platform's answers along. -/
theorem State.leafAnswer_leafTried (s : State) (k : Nat) : s.leafTried.leafAnswer k = s.leafAnswer (k + 1) := by
  simp [State.leafAnswer, List.getElem?_tail, Nat.add_assoc, Nat.add_comm 1]

@[simp] theorem State.leafAnswer_commit (sl : Slot) (s : State) (k : Nat) :
    (sl.commit s).leafAnswer k = s.leafAnswer k := by
  simp [State.leafAnswer]

@[simp] theorem State.sampleLevel_leafTried (s : State) (k : Nat) : s.leafTried.sampleLevel k = s.sampleLevel k := rfl

/-- A completed sample moves the environment's answers along; no other primitive does. -/
theorem State.sampleLevel_commit (sl : Slot) (s : State) (k : Nat) :
    (sl.commit s).sampleLevel k = s.sampleLevel (if sl.leaf.isSample then k + 1 else k) := by
  simp only [State.sampleLevel, Slot.commit_samples, Slot.commit_sampleDraws]
  split <;> simp [List.getElem?_tail, Nat.add_assoc, Nat.add_comm 1]

@[simp] theorem State.isBusy_busy (s : State) (job : Job) (h : s.mode = .busy job) : s.isBusy = true := by
  simp [State.isBusy, h]

/-- A state is busy exactly when a request is in progress. -/
theorem State.isBusy_iff (s : State) : s.isBusy = true ↔ ∃ job, s.mode = .busy job := by
  unfold State.isBusy; split <;> simp_all

end Sys2Proof.Machine
end

