-- ==== Sys2Proof/Laws/Ops.lean ====
section
/-!
SUPPORT. What the shared operations do, said once: one leaf primitive, a list of primitives that the platform
performs, one that it fails, the admission of a request.
-/

namespace Sys2Proof.Machine

/-- The three ways one leaf primitive can go. -/
theorem perform_cases (sl : Slot) (s : State) :
    (s.leafAnswer 0 = .completes ∧ perform sl s = .done (sl.commit s.leafTried)) ∨
      (s.leafAnswer 0 = .fails ∧ perform sl s = .failed (takeLeafFault sl.leaf s.leafTried)) ∨
      (s.leafAnswer 0 = .hangs ∧ perform sl s = .stuck (.leafNeverReturns sl.leaf.name sl.leaf.line)) := by
  unfold perform
  cases h : s.leafAnswer 0 <;> simp

theorem perform_completes {sl : Slot} {s : State} (h : s.leafAnswer 0 = .completes) :
    perform sl s = .done (sl.commit s.leafTried) := by
  simp [perform, h]

theorem perform_fails {sl : Slot} {s : State} (h : s.leafAnswer 0 = .fails) :
    perform sl s = .failed (takeLeafFault sl.leaf s.leafTried) := by
  simp [perform, h]

/-- A list in two parts: the second runs where the first is done. -/
theorem runSlots_append (a b : List Slot) (s : State) :
    runSlots (a ++ b) s =
      match runSlots a s with
      | .done t => runSlots b t
      | .failed t => .failed t
      | .stuck f => .stuck f := by
  induction a generalizing s with
  | nil => rfl
  | cons sl rest ih =>
    simp only [List.cons_append, runSlots]
    cases perform sl s <;> simp [ih]

/-- The events of a primitive list, the samples answered in order by `answer`. -/
def slotEvents : List Slot → (Nat → Level) → List Event
  | [], _ => []
  | sl :: rest, answer =>
    sl.leaf.event (answer 0) :: slotEvents rest (fun k => answer (if sl.leaf.isSample then k + 1 else k))

/-- How many samples a primitive list holds. -/
def slotSamples : List Slot → Nat
  | [] => 0
  | sl :: rest => (if sl.leaf.isSample then 1 else 0) + slotSamples rest

/-- The transaction registers after a primitive list, but for the position. -/
def slotTxn : List Slot → (Nat → Level) → TxnRegs → TxnRegs
  | [], _, t => t
  | sl :: rest, answer, t =>
    slotTxn rest (fun k => answer (if sl.leaf.isSample then k + 1 else k)) (sl.onTxn (answer 0) t)

@[simp] theorem slotEvents_length (slots : List Slot) (answer : Nat → Level) :
    (slotEvents slots answer).length = slots.length := by
  induction slots generalizing answer with
  | nil => rfl
  | cons sl rest ih => simp [slotEvents, ih]

theorem slotSamples_append (a b : List Slot) : slotSamples (a ++ b) = slotSamples a + slotSamples b := by
  induction a with
  | nil => simp [slotSamples]
  | cons sl rest ih => simp [slotSamples, ih, Nat.add_assoc]

theorem slotEvents_append (a b : List Slot) (answer : Nat → Level) :
    slotEvents (a ++ b) answer = slotEvents a answer ++ slotEvents b (fun k => answer (slotSamples a + k)) := by
  induction a generalizing answer with
  | nil => simp [slotEvents, slotSamples]
  | cons sl rest ih =>
    simp only [List.cons_append, slotEvents, slotSamples, ih]
    congr 3
    funext k
    split <;> simp [Nat.add_comm, Nat.add_left_comm]

theorem slotTxn_append (a b : List Slot) (answer : Nat → Level) (t : TxnRegs) :
    slotTxn (a ++ b) answer t = slotTxn b (fun k => answer (slotSamples a + k)) (slotTxn a answer t) := by
  induction a generalizing answer t with
  | nil => simp [slotTxn, slotSamples]
  | cons sl rest ih =>
    simp only [List.cons_append, slotTxn, slotSamples, ih]
    congr 1
    funext k
    split <;> simp [Nat.add_comm, Nat.add_left_comm]

@[simp] theorem TxnRegs.advance_zero (t : TxnRegs) : t.advance 0 = t := by
  obtain ⟨_, _, _, _, _, seq⟩ := t
  cases seq <;> rfl

theorem TxnRegs.advance_advance (m n : Nat) (t : TxnRegs) : (t.advance m).advance n = t.advance (m + n) := by
  obtain ⟨_, _, _, _, _, seq⟩ := t
  cases seq <;> simp [TxnRegs.advance, Reg.update, Nat.add_assoc]

/-- What an entry does to the accumulators does not touch the position. -/
theorem Slot.onTxn_advance (sl : Slot) (v : Level) (n : Nat) (t : TxnRegs) :
    sl.onTxn v (t.advance n) = (sl.onTxn v t).advance n := by
  cases sl with
  | prim p => rfl
  | opens x p => cases x <;> rfl
  | takes x => cases x <;> rfl

theorem slotTxn_advance (slots : List Slot) (answer : Nat → Level) (n : Nat) (t : TxnRegs) :
    slotTxn slots answer (t.advance n) = (slotTxn slots answer t).advance n := by
  induction slots generalizing answer t with
  | nil => rfl
  | cons sl rest ih => simp only [slotTxn, Slot.onTxn_advance, ih]

@[simp] theorem linesAfter_nil (r : LineRegs) : linesAfter [] r = r := rfl
@[simp] theorem linesAfter_cons (sl : Slot) (rest : List Slot) (r : LineRegs) :
    linesAfter (sl :: rest) r = linesAfter rest (r.apply sl.leaf) := rfl
theorem linesAfter_append (a b : List Slot) (r : LineRegs) : linesAfter (a ++ b) r = linesAfter b (linesAfter a r) :=
  List.foldl_append

/-- The state after a primitive list every entry of which the platform performed. -/
def afterSlots (slots : List Slot) (s : State) : State :=
  { s.used slots.length (slotSamples slots) with
    lines := linesAfter slots s.lines
    txn := (slotTxn slots s.sampleLevel s.txn).advance slots.length
    hist := s.hist ++ slotEvents slots s.sampleLevel }

theorem State.platformTakes_tail {s : State} {n : Nat} (sl : Slot) (h : s.platformTakes (n + 1)) :
    (sl.commit s.leafTried).platformTakes n := by
  intro k hk
  rw [State.leafAnswer_commit, State.leafAnswer_leafTried]
  exact h (k + 1) (by omega)

/-- Two states with the same fields are the same. -/
theorem State.ext_fields {s t : State} (h1 : s.mode = t.mode) (h2 : s.lines = t.lines) (h3 : s.txn = t.txn)
    (h4 : s.hist = t.hist) (h5 : s.responses = t.responses) (h6 : s.inbox = t.inbox) (h7 : s.platform = t.platform)
    (h8 : s.samples = t.samples) (h9 : s.leafDraws = t.leafDraws) (h10 : s.sampleDraws = t.sampleDraws) : s = t := by
  cases s; cases t; simp_all

theorem afterSlots_cons (sl : Slot) (rest : List Slot) (s : State) :
    afterSlots rest (sl.commit s.leafTried) = afterSlots (sl :: rest) s := by
  have answers : (sl.commit s.leafTried).sampleLevel =
      fun k => s.sampleLevel (if sl.leaf.isSample then k + 1 else k) := by
    funext k
    rw [State.sampleLevel_commit, State.sampleLevel_leafTried]
  apply State.ext_fields
  · simp [afterSlots]
  · simp [afterSlots]
  · simp only [afterSlots, answers, Slot.commit_txn, State.sampleLevel_leafTried, State.leafTried_txn,
      slotTxn_advance, TxnRegs.advance_advance, slotTxn, List.length_cons, Nat.add_comm 1]
  · simp [afterSlots, answers, slotEvents]
  · simp [afterSlots]
  · simp [afterSlots]
  · simp [afterSlots]
  · simp only [afterSlots, State.used, Slot.commit_samples, State.leafTried_samples, slotSamples]
    split <;> simp [List.drop_tail, Nat.add_comm 1]
  · simp [afterSlots, Nat.add_assoc, Nat.add_comm 1]
  · simp only [afterSlots, State.used, Slot.commit_sampleDraws, State.leafTried_sampleDraws, slotSamples]
    split <;> omega

/-- A primitive list that the platform performs to its end. -/
theorem runSlots_completes {slots : List Slot} {s : State} (h : s.platformTakes slots.length) :
    runSlots slots s = .done (afterSlots slots s) := by
  induction slots generalizing s with
  | nil => simp [runSlots, afterSlots, slotSamples, slotTxn, slotEvents, State.used]
  | cons sl rest ih =>
    have first : s.leafAnswer 0 = .completes := h 0 (by simp)
    simp only [runSlots, perform_completes first]
    rw [ih (State.platformTakes_tail sl h), afterSlots_cons]

/-- The answers left after a list that the platform performed. -/
theorem State.leafAnswer_afterSlots (slots : List Slot) (s : State) (k : Nat) :
    (afterSlots slots s).leafAnswer k = s.leafAnswer (slots.length + k) := by
  simp [State.leafAnswer, afterSlots, Nat.add_assoc]

/-- A primitive list that the platform performs up to entry `k` and fails there. -/
theorem runSlots_fails {slots : List Slot} {s : State} {k : Nat} (hk : k < slots.length) (h : s.platformFailsAt k) :
    runSlots slots s =
      .failed (takeLeafFault slots[k].leaf (afterSlots (slots.take k) s).leafTried) := by
  have split : slots = slots.take k ++ slots[k] :: slots.drop (k + 1) := by simp
  have len : (slots.take k).length = k := List.length_take_of_le (Nat.le_of_lt hk)
  have fails : (afterSlots (slots.take k) s).leafAnswer 0 = .fails := by
    rw [State.leafAnswer_afterSlots, len]; exact h.2
  conv_lhs => rw [split, runSlots_append, runSlots_completes (by rw [len]; exact h.1)]
  simp only [runSlots, perform_fails fails]

/-- Every way a list can end: all done, cut short by a failure, or stuck. -/
theorem runSlots_cases (slots : List Slot) (s : State) :
    (s.platformTakes slots.length ∧ runSlots slots s = .done (afterSlots slots s)) ∨
      (∃ k, ∃ hk : k < slots.length, s.platformFailsAt k ∧
        runSlots slots s = .failed (takeLeafFault slots[k].leaf (afterSlots (slots.take k) s).leafTried)) ∨
      ∃ f, runSlots slots s = .stuck f := by
  by_cases h : s.platformTakes slots.length
  · exact .inl ⟨h, runSlots_completes h⟩
  · right
    have ex : ∃ k, k < slots.length ∧ s.leafAnswer k ≠ .completes := by
      simpa [State.platformTakes] using h
    classical
    obtain ⟨hlt, hne⟩ := Nat.find_spec ex
    have before : s.platformTakes (Nat.find ex) := by
      intro j hj
      by_contra hc
      exact Nat.find_min ex hj ⟨by omega, hc⟩
    cases ans : s.leafAnswer (Nat.find ex) with
    | completes => exact absurd ans hne
    | fails => exact .inl ⟨_, hlt, ⟨before, ans⟩, runSlots_fails hlt ⟨before, ans⟩⟩
    | hangs =>
      right
      have split : slots = slots.take (Nat.find ex) ++ slots[Nat.find ex] :: slots.drop (Nat.find ex + 1) := by simp
      have len : (slots.take (Nat.find ex)).length = Nat.find ex := List.length_take_of_le (Nat.le_of_lt hlt)
      have here : (afterSlots (slots.take (Nat.find ex)) s).leafAnswer 0 = .hangs := by
        rw [State.leafAnswer_afterSlots, len]; exact ans
      exact ⟨_, by
        conv_lhs => rw [split, runSlots_append, runSlots_completes (by rw [len]; exact before)]
        simp only [runSlots, perform, here]; rfl⟩

/-- When INIT is admitted, and what it starts from. -/
theorem admitInit_ok {s t : State} (h : admitInit s = .ok t) :
    s.isBusy = false ∧ t = { s with mode := .busy .init, txn := { TxnRegs.unspec with seq := .holds 0 } } := by
  unfold admitInit at h
  split at h
  · cases h
  · next free => exact ⟨by simpa using free, by cases h; rfl⟩

/-- When a transaction is admitted, and what it starts from. -/
theorem admitFrame_ok {c : CmdWord} {d : DataWord} {s t : State} (h : admitFrame c d s = .ok t) :
    s.mode = .ready ∧ t = { s with
      mode := .busy .transfer
      txn := ⟨.holds c, .holds d, .unspec, .unspec, .holds (directionBit c), .holds 0⟩ } := by
  unfold admitFrame at h
  split at h <;> cases h
  exact ⟨‹_›, rfl⟩

end Sys2Proof.Machine
end

