-- ==== Sys2Proof/Laws/PerInstr.lean ====
section
/-!
SUPPORT. Statements about every operation as syntax, one lemma per constructor. `Resolved`: the kind that a
well-formed operation resolves to is well formed, and resolves to itself (30_encoding.md R57, R58, R95).
-/

namespace Sys2Proof.Laws.Resolved

/-- The kind of a well-formed operation is well formed and final. -/
def Statement (i : Instr) : Prop := i.wf = true → (resolve i).wf = true ∧ resolve (resolve i) = resolve i

/-- A transaction is a kind of its own. -/
theorem frame (w0 w1 : HostWord) :
    (decodeFrame w0 w1).wf = true ∧ resolve (decodeFrame w0 w1) = decodeFrame w0 w1 := by
  unfold decodeFrame
  dsimp only
  split <;> exact ⟨rfl, rfl⟩

/-- So is what a word list selects. -/
theorem words (ws : List HostWord) : (decodeWords ws).wf = true ∧ resolve (decodeWords ws) = decodeWords ws := by
  unfold decodeWords
  split
  · exact frame _ _
  · next shape =>
    refine ⟨?_, rfl⟩
    rcases ws with _ | ⟨a, _ | ⟨b, _ | ⟨c, rest⟩⟩⟩
    · rfl
    · rfl
    · exact absurd rfl (shape a b)
    · simp [Instr.wf]

theorem xferW (r : BitVec 1) (a : RegAddr) (v : DataWord) : Statement (.xferW r a v) := fun h => ⟨h, rfl⟩
theorem xferR (r : BitVec 1) (a : RegAddr) (v : DataWord) : Statement (.xferR r a v) := fun h => ⟨h, rfl⟩
theorem init : Statement .init := fun h => ⟨h, rfl⟩
theorem transfer (ws : List HostWord) : Statement (.transfer ws) := fun _ => words ws
theorem nopT (ws : List HostWord) : Statement (.nopT ws) := fun h => ⟨h, rfl⟩
theorem transferSegments (segs : List (List HostWord)) : Statement (.transferSegments segs) := by
  intro h
  obtain ⟨ws, rfl⟩ : ∃ ws, segs = [ws] := List.length_eq_one_iff.mp (by simpa [Instr.wf] using h)
  exact words ws
theorem nopS (segs : List (List HostWord)) : Statement (.nopS segs) := fun h => ⟨h, rfl⟩
theorem exchangeWord (value : BitVec 16) (n : Nat) : Statement (.exchangeWord value n) := fun h => ⟨h, rfl⟩
theorem exchangeBit (b : Bool) : Statement (.exchangeBit b) := fun h => ⟨h, rfl⟩
theorem clockPulse : Statement .clockPulse := fun h => ⟨h, rfl⟩
theorem settle : Statement .settle := fun h => ⟨h, rfl⟩
theorem dataOut (b : Bool) : Statement (.dataOut b) := fun h => ⟨h, rfl⟩
theorem dataIn : Statement .dataIn := fun h => ⟨h, rfl⟩
theorem select : Statement .select := fun h => ⟨h, rfl⟩
theorem unselect : Statement .unselect := fun h => ⟨h, rfl⟩
theorem dirIn : Statement .dirIn := fun h => ⟨h, rfl⟩
theorem dirOut : Statement .dirOut := fun h => ⟨h, rfl⟩

end Sys2Proof.Laws.Resolved
end

