-- ==== Sys2Proof/Laws/Sequence.lean ====
section
/-!
SUPPORT. What the primitive lists of the operations amount to: their lengths, samples, events (in the terms of
Safety.lean), their effect on the lines and on the transaction registers, and how the sequencer's steps follow them.
-/

namespace Sys2Proof.Machine

/-- The slots of a word exchange once its first entry has opened the accumulator. -/
theorem openWord_length (x : Option Rx) (slots : List Slot) : (openWord x slots).length = slots.length := by
  unfold openWord; split <;> simp

theorem openWord_events (x : Option Rx) (slots : List Slot) (answer : Nat → Level) :
    slotEvents (openWord x slots) answer = slotEvents slots answer := by
  unfold openWord; split <;> rfl

theorem openWord_samples (x : Option Rx) (slots : List Slot) : slotSamples (openWord x slots) = slotSamples slots := by
  unfold openWord; split <;> rfl

theorem openWord_lines (x : Option Rx) (slots : List Slot) (r : LineRegs) :
    linesAfter (openWord x slots) r = linesAfter slots r := by
  unfold openWord; split <;> simp

@[simp] theorem exchangeBitSlots_length (x : Option Rx) (b : Bool) : (exchangeBitSlots x b).length = 6 := by
  cases x <;> rfl

@[simp] theorem exchangeBitSlots_samples (x : Option Rx) (b : Bool) : slotSamples (exchangeBitSlots x b) = 1 := by
  cases x <;> rfl

@[simp] theorem exchangeBitSlots_events (x : Option Rx) (b : Bool) (answer : Nat → Level) :
    slotEvents (exchangeBitSlots x b) answer = bitEvents b (answer 0) := by
  cases x <;> rfl

theorem exchangeBitSlots_lines (x : Option Rx) (b : Bool) (r : LineRegs) :
    linesAfter (exchangeBitSlots x b) r =
      { r with lat := { r.lat with clk := .holds .low, data := .holds (lvl b) } } := by
  cases x <;> rfl

@[simp] theorem exchangeBitsSlots_length (x : Option Rx) (value : BitVec 16) (n : Nat) :
    (exchangeBitsSlots x value n).length = 6 * n := by
  induction n with
  | zero => rfl
  | succ i ih => simp [exchangeBitsSlots, ih]; omega

/-- Past its first `t` bits, a word's list is that of the bits left (R76). -/
theorem exchangeBitsSlots_drop (x : Option Rx) (value : BitVec 16) (n t : Nat) :
    (exchangeBitsSlots x value (n + t)).drop (6 * t) = exchangeBitsSlots x value n := by
  induction t with
  | zero => rfl
  | succ t ih =>
    have one : (exchangeBitsSlots x value (n + t + 1)).drop 6 = exchangeBitsSlots x value (n + t) := by
      cases x <;> rfl
    rw [← ih, ← one, List.drop_drop]
    congr 1
    omega

@[simp] theorem exchangeBitsSlots_samples (x : Option Rx) (value : BitVec 16) (n : Nat) :
    slotSamples (exchangeBitsSlots x value n) = n := by
  induction n with
  | zero => rfl
  | succ i ih => simp [exchangeBitsSlots, slotSamples_append, ih]; omega

@[simp] theorem exchangeBitsSlots_events (x : Option Rx) (value : BitVec 16) (n : Nat) (answer : Nat → Level) :
    slotEvents (exchangeBitsSlots x value n) answer = wordEvents value n answer := by
  induction n generalizing answer with
  | zero => rfl
  | succ i ih =>
    simp only [exchangeBitsSlots, slotEvents_append, exchangeBitSlots_events, exchangeBitSlots_samples, ih, wordEvents,
      List.range_succ_eq_map, List.flatMap_cons, List.flatMap_map]
    congr 2
    funext t
    simp only [Nat.succ_eq_add_one, Nat.add_comm t 1]
    congr 2
    omega

theorem exchangeBitsSlots_lines (x : Option Rx) (value : BitVec 16) (n : Nat) (r : LineRegs) :
    linesAfter (exchangeBitsSlots x value (n + 1)) r =
      { r with lat := { r.lat with clk := .holds .low, data := .holds (lvl (value.getLsbD 0)) } } := by
  induction n generalizing r with
  | zero => simp [exchangeBitsSlots, exchangeBitSlots_lines]
  | succ i ih => rw [exchangeBitsSlots, linesAfter_append, exchangeBitSlots_lines, ih]

@[simp] theorem exchangeWordSlots_length (x : Option Rx) (value : BitVec 16) (n : Nat) :
    (exchangeWordSlots x value n).length = 6 * n := by
  simp [exchangeWordSlots, openWord_length]

@[simp] theorem exchangeWordSlots_samples (x : Option Rx) (value : BitVec 16) (n : Nat) :
    slotSamples (exchangeWordSlots x value n) = n := by
  simp [exchangeWordSlots, openWord_samples]

@[simp] theorem exchangeWordSlots_events (x : Option Rx) (value : BitVec 16) (n : Nat) (answer : Nat → Level) :
    slotEvents (exchangeWordSlots x value n) answer = wordEvents value n answer := by
  simp [exchangeWordSlots, openWord_events]

theorem exchangeWordSlots_lines (x : Option Rx) (value : BitVec 16) {n : Nat} (h : 0 < n) (r : LineRegs) :
    linesAfter (exchangeWordSlots x value n) r =
      { r with lat := { r.lat with clk := .holds .low, data := .holds (lvl (value.getLsbD 0)) } } := by
  obtain ⟨i, rfl⟩ : ∃ i, n = i + 1 := ⟨n - 1, by omega⟩
  rw [exchangeWordSlots, openWord_lines, exchangeBitsSlots_lines]

/-- The number that `n` sampled levels spell, as the accumulator builds it: the first bit ends highest (R84). -/
theorem sampledWord_succ (n : Nat) (answer : Nat → Level) :
    sampledWord (n + 1) answer = (bitOf (answer 0)).toNat * 2 ^ n + sampledWord n (fun k => answer (1 + k)) := by
  simp only [sampledWord, List.range_succ_eq_map, List.map_cons, List.map_map, List.sum_cons]
  congr 2
  · apply List.map_congr_left
    intro t _
    simp only [Function.comp, Nat.succ_eq_add_one, Nat.add_comm t 1]
    congr 2
    omega

theorem sampledWord_lt (n : Nat) (answer : Nat → Level) : sampledWord n answer < 2 ^ n := by
  induction n generalizing answer with
  | zero => simp [sampledWord]
  | succ i ih =>
    rw [sampledWord_succ, Nat.pow_succ]
    have := ih (fun k => answer (1 + k))
    cases bitOf (answer 0) <;> simp <;> omega

/-- One accumulator step on numbers: twice the accumulator and the bit, modulo the width (R84). -/
theorem shiftIn_ofNat (n m : Nat) (b : Bool) : shiftIn b (BitVec.ofNat n m) = BitVec.ofNat n (2 * m + b.toNat) := by
  have disjoint : ∀ x : BitVec n,
      x <<< 1 ||| (BitVec.ofBool b).setWidth n = x <<< 1 + (BitVec.ofBool b).setWidth n := by
    intro x
    rw [BitVec.add_eq_or_of_and_eq_zero]
    apply BitVec.eq_of_getLsbD_eq
    intro i hi
    rcases i with _ | i <;> simp
  rw [shiftIn, disjoint]
  apply BitVec.eq_of_toNat_eq
  cases b <;> simp [Nat.shiftLeft_eq, Nat.mul_comm]

theorem exchangeBitSlots_txn (x : Rx) (b : Bool) (answer : Nat → Level) (t : TxnRegs) :
    slotTxn (exchangeBitSlots (some x) b) answer t = t.takeBit x (bitOf (answer 0)) := rfl

@[simp] theorem exchangeBitSlots_txn_none (b : Bool) (answer : Nat → Level) (t : TxnRegs) :
    slotTxn (exchangeBitSlots none b) answer t = t := rfl

@[simp] theorem exchangeBitsSlots_txn_none (value : BitVec 16) (n : Nat) (answer : Nat → Level) (t : TxnRegs) :
    slotTxn (exchangeBitsSlots none value n) answer t = t := by
  induction n generalizing answer with
  | zero => rfl
  | succ i ih => simp [exchangeBitsSlots, slotTxn_append, ih]

/-- The accumulator of the command word over `n` bits. -/
theorem exchangeBitsSlots_txn_cmd (value : BitVec 16) (n m : Nat) (answer : Nat → Level) (t : TxnRegs) :
    slotTxn (exchangeBitsSlots (some .cmd) value n) answer { t with rxCmd := .holds (BitVec.ofNat 9 m) } =
      { t with rxCmd := .holds (BitVec.ofNat 9 (m * 2 ^ n + sampledWord n answer)) } := by
  induction n generalizing answer m with
  | zero => simp [exchangeBitsSlots, slotTxn, sampledWord]
  | succ i ih =>
    simp only [exchangeBitsSlots, slotTxn_append, exchangeBitSlots_txn, TxnRegs.takeBit, Reg.update, shiftIn_ofNat,
      exchangeBitSlots_samples, ih, sampledWord_succ]
    congr 3
    ring

/-- The accumulator of the data word over `n` bits. -/
theorem exchangeBitsSlots_txn_data (value : BitVec 16) (n m : Nat) (answer : Nat → Level) (t : TxnRegs) :
    slotTxn (exchangeBitsSlots (some .data) value n) answer { t with rxData := .holds (BitVec.ofNat 16 m) } =
      { t with rxData := .holds (BitVec.ofNat 16 (m * 2 ^ n + sampledWord n answer)) } := by
  induction n generalizing answer m with
  | zero => simp [exchangeBitsSlots, slotTxn, sampledWord]
  | succ i ih =>
    simp only [exchangeBitsSlots, slotTxn_append, exchangeBitSlots_txn, TxnRegs.takeBit, Reg.update, shiftIn_ofNat,
      exchangeBitSlots_samples, ih, sampledWord_succ]
    congr 3
    ring

theorem openWord_txn (x : Rx) (value : BitVec 16) (n : Nat) (answer : Nat → Level) (t : TxnRegs) :
    slotTxn (openWord (some x) (exchangeBitsSlots (some x) value (n + 1))) answer t =
      slotTxn (exchangeBitsSlots (some x) value (n + 1)) answer (t.clearRx x) := rfl

/-- EXCHANGE_WORD of at least one bit leaves the sampled word in `rx_cmd` (R84). -/
theorem exchangeWordSlots_txn_cmd (value : BitVec 16) {n : Nat} (h : 0 < n) (answer : Nat → Level) (t : TxnRegs) :
    slotTxn (exchangeWordSlots (some .cmd) value n) answer t =
      { t with rxCmd := .holds (BitVec.ofNat 9 (sampledWord n answer)) } := by
  obtain ⟨i, rfl⟩ : ∃ i, n = i + 1 := ⟨n - 1, by omega⟩
  rw [exchangeWordSlots, openWord_txn]
  have run := exchangeBitsSlots_txn_cmd value (i + 1) 0 answer t
  rw [Nat.zero_mul, Nat.zero_add] at run
  exact run

/-- EXCHANGE_WORD of at least one bit leaves the sampled word in `rx_data` (R84). -/
theorem exchangeWordSlots_txn_data (value : BitVec 16) {n : Nat} (h : 0 < n) (answer : Nat → Level) (t : TxnRegs) :
    slotTxn (exchangeWordSlots (some .data) value n) answer t =
      { t with rxData := .holds (BitVec.ofNat 16 (sampledWord n answer)) } := by
  obtain ⟨i, rfl⟩ : ∃ i, n = i + 1 := ⟨n - 1, by omega⟩
  rw [exchangeWordSlots, openWord_txn]
  have run := exchangeBitsSlots_txn_data value (i + 1) 0 answer t
  rw [Nat.zero_mul, Nat.zero_add] at run
  exact run

@[simp] theorem wordRx_nine : wordRx 9 = some .cmd := rfl
@[simp] theorem wordRx_sixteen : wordRx 16 = some .data := rfl

/-- The list of a transaction, with the parameters of R6 filled in. -/
theorem transferSlots_eq (c : CmdWord) (d : DataWord) (read : Bool) :
    transferSlots c d read =
      clockPulseSlots ++ clockPulseSlots ++ selectSlots ++ exchangeWordSlots (some .cmd) (c.setWidth 16) 9
        ++ turnaroundSlots read ++ exchangeWordSlots (some .data) d 16
        ++ settleSlots ++ unselectSlots ++ dirOutSlots ++ clockPulseSlots := rfl

@[simp] theorem clockPulseSlots_length : clockPulseSlots.length = 4 := rfl
@[simp] theorem clockPulseSlots_samples : slotSamples clockPulseSlots = 0 := rfl
@[simp] theorem clockPulseSlots_events (answer : Nat → Level) : slotEvents clockPulseSlots answer = pulseEvents := rfl
@[simp] theorem clockPulseSlots_txn (answer : Nat → Level) (t : TxnRegs) : slotTxn clockPulseSlots answer t = t := rfl
theorem clockPulseSlots_lines (r : LineRegs) :
    linesAfter clockPulseSlots r = { r with lat := { r.lat with clk := .holds .low } } := rfl

@[simp] theorem turnaroundSlots_length (read : Bool) :
    (turnaroundSlots read).length = if read then 5 else 0 := by cases read <;> rfl
@[simp] theorem turnaroundSlots_samples (read : Bool) : slotSamples (turnaroundSlots read) = 0 := by cases read <;> rfl
@[simp] theorem turnaroundSlots_events (read : Bool) (answer : Nat → Level) :
    slotEvents (turnaroundSlots read) answer = turnaroundEvents read := by cases read <;> rfl
@[simp] theorem turnaroundSlots_txn (read : Bool) (answer : Nat → Level) (t : TxnRegs) :
    slotTxn (turnaroundSlots read) answer t = t := by cases read <;> rfl

/-- 166 primitives for a write, 171 for a read (R76). -/
@[simp] theorem transferSlots_length (c : CmdWord) (d : DataWord) (read : Bool) :
    (transferSlots c d read).length = transferLength read := by
  cases read <;> simp [transferSlots_eq, transferLength, settleSlots, selectSlots, unselectSlots, dirOutSlots]

@[simp] theorem transferSlots_samples (c : CmdWord) (d : DataWord) (read : Bool) :
    slotSamples (transferSlots c d read) = 25 := by
  simp [transferSlots_eq, slotSamples_append, settleSlots, selectSlots, unselectSlots, dirOutSlots, slotSamples,
    Prim.isSample]

/-- The events of a transaction's list are those of Safety.lean. -/
theorem transferSlots_events (c : CmdWord) (d : DataWord) (answer : Nat → Level) :
    slotEvents (transferSlots c d (directionBit c)) answer = transferEvents c d answer := by
  simp [transferSlots_eq, slotEvents_append, settleSlots, selectSlots, unselectSlots, dirOutSlots, slotEvents,
    Prim.isSample, transferEvents, directionBit, Prim.event]
  rfl

/-- The transaction registers at the end of a transaction's list: each accumulator holds its sampled word (R73). -/
theorem transferSlots_txn (c : CmdWord) (d : DataWord) (read : Bool) (answer : Nat → Level) (t : TxnRegs) :
    slotTxn (transferSlots c d read) answer t =
      { t with
        rxCmd := .holds (BitVec.ofNat 9 (sampledWord 9 answer))
        rxData := .holds (BitVec.ofNat 16 (sampledWord 16 fun k => answer (9 + k))) } := by
  simp [transferSlots_eq, slotTxn_append, settleSlots, selectSlots, unselectSlots, dirOutSlots, slotTxn,
    Prim.isSample, exchangeWordSlots_txn_cmd, exchangeWordSlots_txn_data, Slot.onTxn]

/-- The lines at the end of a transaction's list (R74). -/
theorem transferSlots_lines (c : CmdWord) (d : DataWord) (read : Bool) (r : LineRegs) :
    linesAfter (transferSlots c d read) r = r.afterTransfer d := by
  cases read <;>
    simp [transferSlots_eq, linesAfter_append, exchangeWordSlots_lines, clockPulseSlots_lines, selectSlots,
      unselectSlots, dirOutSlots, settleSlots, turnaroundSlots, dirInSlots, pulses, LineRegs.afterTransfer, Level.flip]

@[simp] theorem initSlots_length : initSlots.length = 10 := rfl
theorem initSlots_events (answer : Nat → Level) : slotEvents initSlots answer = initEvents := rfl
theorem initSlots_lines (r : LineRegs) : linesAfter initSlots r = r.afterInit := rfl

/-- The mode and the inbox are the same after one completed primitive: only completion and the fault end `Busy`. -/
theorem jobSlots_commit (job : Job) (sl : Slot) (s : State) (c : CmdWord) (d : DataWord) (read : Bool)
    (hc : s.txn.txCmd = .holds c) (hd : s.txn.txData = .holds d) (hr : s.txn.directionRead = .holds read) :
    jobSlots job (sl.commit s.leafTried) = jobSlots job s := by
  have keep : ∀ v : Level, (sl.onTxn v s.txn).txCmd = s.txn.txCmd ∧ (sl.onTxn v s.txn).txData = s.txn.txData ∧
      (sl.onTxn v s.txn).directionRead = s.txn.directionRead := by
    intro v
    cases sl with
    | prim p => exact ⟨rfl, rfl, rfl⟩
    | opens x p => cases x <;> exact ⟨rfl, rfl, rfl⟩
    | takes x => cases x <;> exact ⟨rfl, rfl, rfl⟩
  cases job with
  | init => rfl
  | transfer => simp [jobSlots, TxnRegs.advance, keep, hc, hd, hr]

/-- What one step of the sequencer can do while its position is inside the list. -/
theorem tick_cases {job : Job} {s t : State} {k : Nat} (hk : s.txn.seq = .holds k) (hl : k < (jobSlots job s).length)
    (h : tick job s = .next t) :
    (s.leafAnswer 0 = .completes ∧
        t = if k + 1 = (jobSlots job s).length then completeJob job ((jobSlots job s)[k].commit s.leafTried)
          else (jobSlots job s)[k].commit s.leafTried) ∨
      (s.leafAnswer 0 = .fails ∧ t = takeLeafFault (jobSlots job s)[k].leaf s.leafTried) := by
  unfold tick at h
  simp only [hk, Reg.read_holds, List.getElem?_eq_getElem hl] at h
  rcases perform_cases (jobSlots job s)[k] s with ⟨a, p⟩ | ⟨a, p⟩ | ⟨a, p⟩ <;> rw [p] at h <;> cases h
  · exact .inl ⟨a, rfl⟩
  · exact .inr ⟨a, rfl⟩

/-- What one step of the sequencer can do in any state: a position past the list completes the request; otherwise
one entry of the list is performed, or fails. -/
theorem tick_next {job : Job} {s t : State} (h : tick job s = .next t) :
    t = completeJob job s ∨
      ∃ sl ∈ jobSlots job s,
        (s.leafAnswer 0 = .completes ∧ (t = sl.commit s.leafTried ∨ t = completeJob job (sl.commit s.leafTried))) ∨
          (s.leafAnswer 0 = .fails ∧ t = takeLeafFault sl.leaf s.leafTried) := by
  unfold tick at h
  dsimp only at h
  split at h
  · cases h
    exact .inl rfl
  · next sl here =>
    refine .inr ⟨sl, List.mem_of_getElem? here, ?_⟩
    rcases perform_cases sl s with ⟨a, p⟩ | ⟨a, p⟩ | ⟨a, p⟩ <;> rw [p] at h
    · dsimp only at h
      split at h <;> cases h
      · exact .inl ⟨a, .inr rfl⟩
      · exact .inl ⟨a, .inl rfl⟩
    · cases h
      exact .inr ⟨a, rfl⟩
    · cases h

end Sys2Proof.Machine
end

