-- ==== Sys2Proof/Laws/Step.lean ====
section
/-!
SUPPORT. What one step can do (Step.lean): the sequencer, the admission of a call, the idle step, a call in mode
`Busy`; and runs of steps.
-/

namespace Sys2Proof.Machine

/-- In mode `Busy`, with no call made at once, a step is one of the sequencer. -/
theorem step_busy {s : State} {job : Job} (h : s.mode = .busy job) (w : waits s.inbox = true) :
    step s = tick job s := by
  unfold step
  rcases hi : s.inbox with _ | ⟨⟨q, tm⟩, rest⟩
  · simp [h]
  · cases tm
    · simp [h]
    · simp [hi, waits] at w

/-- In mode `Busy`, a call made at once is the step. -/
theorem step_overlapping {s : State} {job : Job} {q : Request} {rest : List HostCall} (h : s.mode = .busy job)
    (hi : s.inbox = ⟨q, .overlapping⟩ :: rest) : step s = exec (decode q) { s with inbox := rest } := by
  simp [step, h, hi]

/-- With no call to come and none in progress, nothing changes. -/
theorem step_idle {s : State} (h : s.isBusy = false) (hi : s.inbox = []) : step s = .next s := by
  unfold step
  rcases hm : s.mode with _ | _ | job | _ <;> simp_all [State.isBusy]

/-- With no request in progress, a step takes the host's next call. -/
theorem step_call {s : State} {c : HostCall} {rest : List HostCall} (h : s.isBusy = false) (hi : s.inbox = c :: rest) :
    step s =
      match begins (decode c.request) { s with inbox := rest } with
      | some t => .next t
      | none => exec (decode c.request) { s with inbox := rest } := by
  rcases s with ⟨mode⟩
  dsimp only at hi
  subst hi
  rcases mode with _ | _ | job | _
  · rfl
  · rfl
  · exact absurd h (by simp [State.isBusy])
  · rfl

/-- What a request decodes to: INIT, a transaction, or a no-op (R58). -/
theorem decode_cases (q : Request) :
    decode q = .init ∨ (∃ r a v, decode q = .xferW r a v) ∨ (∃ r a v, decode q = .xferR r a v) ∨
      (∃ ws, decode q = .nopT ws) ∨ ∃ segs, decode q = .nopS segs := by
  have frame : ∀ w0 w1, (∃ r a v, decodeFrame w0 w1 = .xferW r a v) ∨ ∃ r a v, decodeFrame w0 w1 = .xferR r a v := by
    intro w0 w1
    unfold decodeFrame
    dsimp only
    split
    · exact .inr ⟨_, _, _, rfl⟩
    · exact .inl ⟨_, _, _, rfl⟩
  have words : ∀ ws, (∃ r a v, decodeWords ws = .xferW r a v) ∨ (∃ r a v, decodeWords ws = .xferR r a v) ∨
      ∃ ws', decodeWords ws = .nopT ws' := by
    intro ws
    unfold decodeWords
    split
    · rcases frame _ _ with h | h
      · exact .inl h
      · exact .inr (.inl h)
    · exact .inr (.inr ⟨_, rfl⟩)
  cases q with
  | init => exact .inl rfl
  | transfer ws =>
    rcases words ws with h | h | h
    · exact .inr (.inl h)
    · exact .inr (.inr (.inl h))
    · exact .inr (.inr (.inr (.inl h)))
  | transferSegments segs =>
    simp only [decode, requestInstr, resolve, decodeSegments]
    split
    · rename_i ws
      rcases words ws with h | h | h
      · exact .inr (.inl h)
      · exact .inr (.inr (.inl h))
      · exact .inr (.inr (.inr (.inl h)))
    · exact .inr (.inr (.inr (.inr ⟨_, rfl⟩)))

/-- A request in mode `Busy` is refused, whatever it decodes to. -/
theorem exec_decode_busy (q : Request) {s : State} {job : Job} (h : s.mode = .busy job) :
    exec (decode q) s = .refused .requestWhileBusy := by
  rcases decode_cases q with e | ⟨r, a, v, e⟩ | ⟨r, a, v, e⟩ | ⟨ws, e⟩ | ⟨segs, e⟩ <;> rw [e] <;>
    simp [exec, execInit, execXferW, execXferR, execNopT, execNopS, ignoreCall, runRequest, admitInit, admitFrame,
      State.isBusy, h]

/-- Runs of steps, from the front. -/
theorem run_succ (n : Nat) {s t : State} (h : step s = .next t) :
    Host.Core.run Sys2Proof.core (n + 1) s = Host.Core.run Sys2Proof.core n t := by
  have here : Sys2Proof.core.step s = .next t := h
  simp only [Host.Core.run, here]

/-- Every way a step can answer a next state. -/
theorem step_cases {s t : State} (h : step s = .next t) :
    (∃ job, s.mode = .busy job ∧ tick job s = .next t) ∨
      (s.isBusy = false ∧ s.inbox = [] ∧ t = s) ∨
      (∃ c rest, s.isBusy = false ∧ s.inbox = c :: rest ∧
        (begins (decode c.request) { s with inbox := rest } = some t ∨
          ∃ answer, t = { s with inbox := rest, responses := s.responses ++ [answer] })) := by
  rcases hb : s.isBusy with _ | _
  · rcases hi : s.inbox with _ | ⟨c, rest⟩
    · rw [step_idle hb hi] at h
      cases h
      exact .inr (.inl ⟨rfl, rfl, rfl⟩)
    · rw [step_call hb hi] at h
      refine .inr (.inr ⟨c, rest, rfl, rfl, ?_⟩)
      generalize hu : { s with inbox := rest } = u at h ⊢
      have ub : u.isBusy = false := by rw [← hu]; exact hb
      cases hg : begins (decode c.request) u with
      | some t' => rw [hg] at h; cases h; exact .inl rfl
      | none =>
        rw [hg] at h
        right
        rcases decode_cases c.request with e | ⟨r, a, v, e⟩ | ⟨r, a, v, e⟩ | ⟨ws, e⟩ | ⟨segs, e⟩ <;> rw [e] at h hg
        · simp [begins, admitInit, ub, Except.toOption] at hg
        · cases ha : admitFrame (commandWord r false a) v u with
          | error er => simp [exec, execXferW, runRequest, ha] at h
          | ok t' => simp [begins, ha, Except.toOption] at hg
        · cases ha : admitFrame (commandWord r true a) v u with
          | error er => simp [exec, execXferR, runRequest, ha] at h
          | ok t' => simp [begins, ha, Except.toOption] at hg
        · simp [exec, execNopT, ignoreCall, ub] at h
          exact ⟨.ignored ws, by rw [← h, ← hu]⟩
        · simp [exec, execNopS, ignoreCall, ub] at h
          exact ⟨.ignoredSegments segs, by rw [← h, ← hu]⟩
  · obtain ⟨job, hm⟩ := (State.isBusy_iff s).mp hb
    refine .inl ⟨job, hm, ?_⟩
    rcases hi : s.inbox with _ | ⟨⟨q, tm⟩, rest⟩
    · rwa [step_busy hm (by simp [hi, waits])] at h
    · cases tm
      · rwa [step_busy hm (by simp [hi, waits])] at h
      · rw [step_overlapping hm hi, exec_decode_busy q (job := job) (by simpa using hm)] at h
        cases h

/-- What stands before its first primitive: INIT or a transaction, admitted (R64, R68). -/
theorem begins_decode {q : Request} {s t : State} (h : begins (decode q) s = some t) :
    (decode q = .init ∧ s.isBusy = false ∧
        t = { s with mode := .busy .init, txn := { TxnRegs.unspec with seq := .holds 0 } }) ∨
      ∃ c d, s.mode = .ready ∧ t = { s with
        mode := .busy .transfer
        txn := ⟨.holds c, .holds d, .unspec, .unspec, .holds (directionBit c), .holds 0⟩ } := by
  rcases decode_cases q with e | ⟨r, a, v, e⟩ | ⟨r, a, v, e⟩ | ⟨ws, e⟩ | ⟨segs, e⟩ <;> rw [e] at h
  · refine .inl ⟨e, ?_⟩
    cases ha : admitInit s with
    | error er => simp [begins, ha, Except.toOption] at h
    | ok t' =>
      obtain rfl : t' = t := by simpa [begins, ha, Except.toOption] using h
      exact admitInit_ok ha
  · cases ha : admitFrame (commandWord r false a) v s with
    | error er => simp [begins, ha, Except.toOption] at h
    | ok t' =>
      obtain rfl : t' = t := by simpa [begins, ha, Except.toOption] using h
      exact .inr ⟨_, _, admitFrame_ok ha⟩
  · cases ha : admitFrame (commandWord r true a) v s with
    | error er => simp [begins, ha, Except.toOption] at h
    | ok t' =>
      obtain rfl : t' = t := by simpa [begins, ha, Except.toOption] using h
      exact .inr ⟨_, _, admitFrame_ok ha⟩
  · simp [begins] at h
  · simp [begins] at h

end Sys2Proof.Machine
end

