-- ==== Sys2Proof/Tests/Slice0.lean ====
section
/-!
SUPPORT. Tests: ill-formed terms refused, words decoded, one or two small tests per operation, and for each
obligation with hypotheses a state and operands that meet them. Expected results are those of 95_test_vectors.md
(the vector is named) or of the rule named.
-/

namespace Sys2Proof.Tests

open Sys2Proof Sys2Proof.Machine

/-! ### States to test on -/

/-- After INIT, with `n` primitives the platform performs and the environment's answers `smp`. -/
def ready (n : Nat) (smp : List Level) : State :=
  { State.reset.afterInit with platform := List.replicate n .completes, samples := smp }

/-- At power-on, with `n` primitives the platform performs. -/
def powerOn (n : Nat) : State := { State.reset with platform := List.replicate n .completes }

/-- After a leaf failure (R104). -/
def faulted (n : Nat) : State := takeLeafFault (.drive .clk .high) (ready (n + 1) []).leafTried

/-- A transaction admitted and standing before its first primitive (R68). -/
def admitted (cmd : CmdWord) (data : DataWord) (n : Nat) (smp : List Level) : State :=
  { ready n smp with
    mode := .busy .transfer
    txn := ⟨.holds cmd, .holds data, .unspec, .unspec, .holds (directionBit cmd), .holds 0⟩ }

/-- The bits of a word, most significant first, as levels. -/
def bitsOf (n w : Nat) : List Level := (List.range n).map fun t => lvl (w.testBit (n - 1 - t))

/-- The state of an outcome, where it is a next state. -/
def after : Host.Outcome State Fault Refusal → Option State
  | .next s => some s
  | .fault _ => none
  | .refused _ => none

/-- The reason of a refusal, where there is one. -/
def refusal : Host.Outcome State Fault Refusal → Option Refusal
  | .next _ => none
  | .fault _ => none
  | .refused r => some r

/-! ### Well-formedness (opcode table, R92) -/

theorem test_wf_nopT_two_words : (Instr.nopT [0x005, 0x0000]).wf = false := by decide
theorem test_wf_nopS_one_segment : (Instr.nopS [[0x005, 0x0000]]).wf = false := by decide
theorem test_wf_segments_two : (Instr.transferSegments [[0x005], [0x006]]).wf = false := by decide
theorem test_wf_exchangeWord_eight_bits : (Instr.exchangeWord 0x085 8).wf = false := by decide
theorem test_wf_exchangeWord_nine_bits : (Instr.exchangeWord 0x085 9).wf = true := by decide

/-! ### Decoding (R49, R52, R57; S9, V-W6, V-R7) -/

theorem test_decode_write_word : decodeTableWord 16 0b0000000000000101 = some (.xferW 0 5 0) := by decide
theorem test_decode_read_word : decodeTableWord 16 0b0000000010000101 = some (.xferR 0 5 0) := by decide
theorem test_decode_reserved_one : decodeTableWord 32 0x8001017F = some (.xferW 1 127 0x8001) := by decide
theorem test_decode_high_bits_dropped :
    decode (.transfer [0xFE85, 0x1234]) = .xferR 0 5 0x1234 := by decide
theorem test_decode_bit_seven_is_zero : decode (.transfer [0x155, 0x5A3C]) = .xferW 1 0x55 0x5A3C := by decide
theorem test_decode_init : decode .init = .init := by decide
theorem test_decode_one_word : decode (.transfer [0x005]) = .nopT [0x005] := by decide
theorem test_decode_two_segments :
    decode (.transferSegments [[0x005, 0x1111], [0x006, 0x2222]]) = .nopS [[0x005, 0x1111], [0x006, 0x2222]] := by decide
theorem test_decode_nested_guard : decode (.transferSegments [[0x005]]) = .nopT [0x005] := by decide
theorem test_requestInstr_transfer : requestInstr (.transfer [0x085, 0]) = .transfer [0x085, 0] := by decide
theorem test_requestInstr_segments : requestInstr (.transferSegments [[1, 2]]) = .transferSegments [[1, 2]] := by decide
theorem test_encode_read : encode (.xferR 0 5 0) = some (.transfer [0x085, 0x0000]) := by decide
theorem test_encode_write : encode (.xferW 1 127 0x8001) = some (.transfer [0x17F, 0x8001]) := by decide
theorem test_encode_internal : encode .clockPulse = none := by decide

/-! ### INIT (V-I1, V-I2, V-I3, V-I4) -/

theorem test_init_events : (after (exec .init (powerOn 10))).map State.hist =
    some [.cfg .clk, .cfg .data, .setDir .clk .out, .setDir .data .out, .drive .clk .low, .drive .data .low,
      .setDir .enN .out, .setDir .rstN .out, .drive .enN .high, .drive .rstN .high] := by decide +kernel
theorem test_init_from_faulted : (after (exec .init (faulted 10))).map (fun t => (t.mode, t.lines.lat)) =
    some (.ready, ⟨.holds .low, .holds .low, .holds .high, .holds .high⟩) := by decide +kernel

/-! ### XFER.W, XFER.R (V-W4, V-W11, V-R1, V-R3, V-F1) -/

theorem test_xferW_reserved_one :
    (after (exec (.xferW 1 0 0x0001) (ready 166 (bitsOf 9 0x100 ++ bitsOf 16 0x0001)))).map
      (fun t => (t.responses, t.lines.lat.data, t.hist.length)) =
    some ([.words 0x100 0x0001], .holds .high, 166) := by decide +kernel
theorem test_xferW_word_boundary :
    (after (exec (.xferW 0 5 0) (ready 166 (bitsOf 25 0x18000)))).map State.responses =
    some [.words 0x001 0x8000] := by decide +kernel
theorem test_xferR_reads_beef :
    (after (exec (.xferR 0 5 0) (ready 171 (bitsOf 9 0x085 ++ bitsOf 16 0xBEEF)))).map
      (fun t => (t.responses, t.hist[63]?, t.hist[166]?, (t.hist.drop 96).take 8)) =
    some ([.words 0x085 0xBEEF], some (.setDir .data .inp), some (.setDir .data .out),
      [.drive .clk .low, .sample .data .high, .drive .data .low, .delay, .drive .clk .high, .delay, .drive .clk .low,
        .sample .data .high]) := by decide +kernel
theorem test_xferR_fails_at_100 :
    (after (exec (.xferR 0 5 0)
      { ready 100 (bitsOf 25 0) with platform := List.replicate 100 .completes ++ [.fails] })).map
      (fun t => (t.mode, t.hist.length, t.responses, t.lines.lat.enN)) =
    some (.faulted, 100, [.fault ⟨.drive, some .clk⟩], .unspec) := by decide +kernel

/-! ### TRANSFER, NOP.T, TRANSFER_SEGMENTS, NOP.S (V-F4, V-N3, V-N5, V-N6, V-N7, V-N8) -/

theorem test_transfer_before_init : refusal (exec (.transfer [0x005, 0x0000]) (powerOn 0)) =
    some .transferBeforeInit := by decide
theorem test_transfer_high_bits : (after (exec (.transfer [0xFE85, 0x1234]) (ready 171 (bitsOf 25 0x0851234)))).map
    State.responses = some [.words 0x0085 0x1234] := by decide +kernel
theorem test_nopT_in_uninit : (after (exec (.nopT [1, 2, 3]) (powerOn 0))).map (fun t => (t.mode, t.hist, t.responses)) =
    some (.uninit, [], [.ignored [1, 2, 3]]) := by decide
theorem test_nopT_in_faulted : (after (exec (.nopT [0x005]) (faulted 0))).map State.mode = some .faulted := by decide
theorem test_segments_inner_guard : (after (exec (.transferSegments [[0x005]]) (ready 0 []))).map State.responses =
    some [.ignored [0x005]] := by decide
theorem test_segments_runs_read :
    (after (exec (.transferSegments [[0x085, 0x0000]]) (ready 171 (bitsOf 25 0x0850000)))).map
      (fun t => (t.responses, t.hist.length)) = some ([.words 0x085 0x0000], 171) := by decide +kernel
theorem test_nopS_two_segments :
    (after (exec (.nopS [[0x005, 0x1111], [0x006, 0x2222]]) (ready 0 []))).map (fun t => (t.mode, t.hist)) =
    some (.ready, []) := by decide
theorem test_nopS_in_busy : refusal (exec (.nopS []) (admitted 0x005 0 0 [])) = some .requestWhileBusy := by decide

/-! ### Sub-protocols and micro-operations (V-X4, V-X7, V-B3, V-B5, V-P1; R79 to R88) -/

theorem test_exchangeWord_high_bits_unseen :
    (after (exec (.exchangeWord 0xFE85 9) (ready 54 (bitsOf 9 0x085)))).map
      (fun t => (t.txn.rxCmd, t.hist.filterMap Event.dataDriven)) =
    some (.holds 0x085, bitsOf 9 0x085) := by decide +kernel
theorem test_exchangeWord_beef : (after (exec (.exchangeWord 0 16) (ready 96 (bitsOf 16 0xBEEF)))).map
    (fun t => (t.txn.rxData, t.txn.rxCmd)) = some (.holds 0xBEEF, .unspec) := by decide +kernel
theorem test_exchangeBit_sample_not_driven : (after (exec (.exchangeBit true) (ready 6 [.low]))).map State.hist =
    some [.drive .data .high, .delay, .drive .clk .high, .delay, .drive .clk .low, .sample .data .low] := by decide
theorem test_exchangeBit_while_input :
    (after (exec (.exchangeBit true)
      { ready 6 [.low] with lines := (ready 0 []).lines.apply (.setDir .data .inp) })).map
      (fun t => (t.lines.lat.data, t.lines.dir.data)) = some (.holds .high, .holds .inp) := by decide
theorem test_clockPulse : (after (exec .clockPulse (ready 4 []))).map State.hist =
    some [.delay, .drive .clk .high, .delay, .drive .clk .low] := by decide
theorem test_clockPulse_fails_between_edges :
    (after (exec .clockPulse { ready 0 [] with platform := [.completes, .completes, .fails] })).map
      (fun t => (t.hist, t.responses)) =
    some ([.delay, .drive .clk .high], [.fault ⟨.delay, none⟩]) := by decide
theorem test_settle : (after (exec .settle (ready 1 []))).map State.hist = some [.delay] := by decide
theorem test_dataOut_one : (after (exec (.dataOut true) (ready 1 []))).map (fun t => t.lines.lat.data) =
    some (.holds .high) := by decide
theorem test_dataIn_answers : (after (exec .dataIn (ready 1 [.high, .low]))).map (fun t => (t.hist, t.samples)) =
    some ([.sample .data .high], [.low]) := by decide
theorem test_select : (after (exec .select (ready 1 []))).map (fun t => (t.lines.lat.enN, t.selected)) =
    some (.holds .low, true) := by decide
theorem test_unselect : (after (exec .unselect (ready 1 []))).map (fun t => (t.lines.lat.enN, t.selected)) =
    some (.holds .high, false) := by decide
theorem test_dirIn : (after (exec .dirIn (ready 1 []))).map (fun t => t.lines.dir.data) = some (.holds .inp) := by decide
theorem test_dirOut_pin_takes_latch :
    (after (exec .dirOut
      { ready 1 [] with lines := ((ready 0 []).lines.apply (.setDir .data .inp)).apply (.drive .data .high) })).map
      (fun t => t.pin .data) = some .high := by decide

/-! ### Steps -/

theorem test_step_admits_read : (after (step (State.reset.withFetchWord 16 0x085))).map (fun t => (t.mode, t.txn)) =
    some (.busy .transfer, ⟨.holds 0x085, .holds 0, .unspec, .unspec, .holds true, .holds 0⟩) := by decide
theorem test_step_idle : after (step State.reset) = some State.reset := by decide
theorem test_step_overlap_refused :
    refusal (step { admitted 0x005 0 1 [] with inbox := [⟨.init, .overlapping⟩] }) = some .requestWhileBusy := by decide
theorem test_step_one_primitive : (after (step (admitted 0x005 0 1 []))).map (fun t => (t.hist, t.txn.seq, t.mode)) =
    some ([.delay], .holds 1, .busy .transfer) := by decide +kernel
theorem test_step_hangs : (match step { admitted 0x005 0 0 [] with platform := [.hangs] } with
    | .fault f => some f
    | .next _ => none
    | .refused _ => none) = some (.leafNeverReturns .delay none) := by decide

/-! ### Witnesses: each hypothesis of an obligation is met -/

theorem test_ready_inv : (ready 171 []).inv := ⟨rfl, rfl, by decide, rfl⟩
theorem test_ready_windowInv : (ready 171 []).windowInv := by
  show LineRegs.inWindow false 0 _
  decide
theorem test_powerOn_inv : (powerOn 10).inv := ⟨rfl, rfl, rfl, rfl, rfl⟩
theorem test_admitted_inv : (admitted 0x085 0 171 []).inv :=
  ⟨rfl, rfl, 0x085, 0, 0, rfl, rfl, rfl, rfl, by decide, by decide, by decide, by decide +kernel⟩
theorem test_admitted_windowInv : (admitted 0x085 0 171 []).windowInv :=
  ⟨0x085, 0, rfl, rfl, rfl, by decide, by decide⟩

/-- DecodeOfEncode. -/
theorem test_witness_encode : (Instr.xferR 1 127 0xFFFF).wf = true ∧
    encode (.xferR 1 127 0xFFFF) = some (.transfer [0x1FF, 0xFFFF]) := by decide
/-- CountsSelectOperation, the Misshapen statements: counts on both sides of the legal ones. -/
theorem test_witness_counts : ([] : List HostWord).length ≠ 2 ∧ ([1] : List HostWord).length ≠ 2 ∧
    ([1, 2, 3] : List HostWord).length ≠ 2 ∧ ([] : List (List HostWord)).length ≠ 1 ∧
    ([[1, 2], [3, 4]] : List (List HostWord)).length ≠ 1 ∧ (0x005 : HostWord).getLsbD 7 = false ∧
    (0x085 : HostWord).getLsbD 7 = true := by decide
/-- StepKeepsModeInvariant, StepKeepsSelectWindow, ModeChangesOnlyAsSpecified, FastModeOnlyForClockAndData,
HistoryGrowsByAllowedEvents, EachRequestAnsweredOnce: a step that answers a next state, in `Busy` and out of it. -/
theorem test_witness_step : (after (step (admitted 0x085 0 171 []))).isSome = true ∧
    (after (step { ready 10 [] with inbox := [⟨.init, .serialised⟩] })).isSome = true ∧
    (after (step { ready 10 [] with inbox := [⟨.transfer [], .overlapping⟩] })).isSome = true := by decide
/-- ResetLineNeverDrivenLow, with the two contents the latch has in a run. -/
theorem test_witness_reset_line : (ready 0 []).lines.lat.rstN ≠ .holds .low ∧
    (powerOn 0).lines.lat.rstN ≠ .holds .low := by decide
/-- RunOnlyAppendsToHistory. -/
theorem test_witness_run : (after (Host.Core.run Sys2Proof.core 3 (admitted 0x085 0 171 []))).map State.hist =
    some [.delay, .drive .clk .high, .delay] := by decide +kernel
/-- DrivenPinShowsLatch. -/
theorem test_witness_pin : (ready 0 []).lines.dir.get .enN = .holds .out ∧
    (ready 0 []).lines.lat.get .enN = .holds .high := by decide
/-- SettleIsOneDelay to DirOutTurnsDataToOutput: one primitive performed, with `DATA` an output and its latch held. -/
theorem test_witness_one_primitive : (ready 1 []).platformTakes 1 ∧ (ready 1 []).lines.dir.data = .holds .out ∧
    (ready 1 []).lines.lat.data = .holds .low := by decide
/-- DirInTurnsDataToInput, on event lists: both directions. -/
theorem test_witness_directions : (0x085 : CmdWord).getLsbD 7 = true ∧ (0x005 : CmdWord).getLsbD 7 = false := by decide
/-- AdmissionLatchesOperands, DirectionBitSelectsKind: a transaction that begins. -/
theorem test_witness_admission :
    (after (step { ready 0 [] with inbox := [⟨.transfer [0xFE85, 0x1234], .serialised⟩] })).map State.txn =
    some ⟨.holds 0x085, .holds 0x1234, .unspec, .unspec, .holds true, .holds 0⟩ := by decide
/-- DataOutWritesLatch, its clause on an input line. -/
theorem test_witness_input_line :
    let s := { ready 1 [] with lines := (ready 0 []).lines.apply (.setDir .data .inp) }
    s.lines.dir.data = .holds .inp ∧ s.platformTakes 1 := by decide
/-- ClockPulseRisesThenFalls, ExchangeBitDrivesThenSamples. -/
theorem test_witness_pulse_and_bit : (ready 4 []).platformTakes 4 ∧ (ready 6 [.high]).platformTakes 6 := by decide
/-- ExchangeWordShiftsInSamples. -/
theorem test_witness_word : (ready 54 []).platformTakes 54 ∧ (ready 96 []).platformTakes 96 := by decide +kernel
/-- LoopbackReturnsTheWord, its first clause. -/
theorem test_witness_loopback_command : (ready 54 (bitsOf 9 0x1AA)).platformTakes 54 ∧
    ∀ t < 9, (ready 54 (bitsOf 9 0x1AA)).sampleLevel t = lvl ((0x1AA : BitVec 16).getLsbD (8 - t)) := by
  decide +kernel
/-- LoopbackReturnsTheWord, its second clause. -/
theorem test_witness_loopback_data : (ready 96 (bitsOf 16 0x8001)).platformTakes 96 ∧
    ∀ t < 16, (ready 96 (bitsOf 16 0x8001)).sampleLevel t = lvl ((0x8001 : BitVec 16).getLsbD (15 - t)) := by
  decide +kernel
/-- InitLeavesReadyState, from the three modes that accept INIT. -/
theorem test_witness_init : ((powerOn 10).isBusy = false ∧ (powerOn 10).platformTakes 10) ∧
    ((ready 10 []).isBusy = false ∧ (ready 10 []).platformTakes 10) ∧
    (faulted 10).isBusy = false ∧ (faulted 10).platformTakes 10 := by decide
/-- InitLevelsUndefinedInWindow. -/
theorem test_witness_window : let s := { powerOn 9 with inbox := [⟨.init, .serialised⟩] }
    s.mode = .uninit ∧ s.lines = .powerOn ∧ s.inbox = [⟨.init, .serialised⟩] ∧ s.platformTakes 9 := by decide
/-- XferWriteRunsToReady, XferReadRunsToReady, StateAfterTransaction (with `test_ready_inv`), ResultIsTheSampledBits,
SamplesSteerNothing, EventCountsOfTransaction, WireOrderIsTheFrame, DirectionChangesOfTransaction,
TransferOfTwoWordsCompletes. -/
theorem test_witness_transfer : (ready 171 []).mode = .ready ∧ (ready 171 []).platformTakes (transferLength true) ∧
    (ready 171 []).platformTakes (transferLength false) ∧
    (ready 171 []).platformTakes (transferLength ((0x085 : HostWord).getLsbD 7)) := by decide +kernel
/-- ResultIsTheSampledBits, its loopback clause. -/
theorem test_witness_frame_loopback :
    ∀ k < 25, (ready 171 (bitsOf 9 0x1FF ++ bitsOf 16 0xA5C3)).sampleLevel k =
      lvl ((frame25 (commandWord 1 true 127) 0xA5C3).getLsbD (24 - k)) := by decide +kernel
/-- ResultDependsOnSamplesOnly: two states with the same answers. -/
theorem test_witness_same_samples :
    ∀ k < 25, (ready 171 (bitsOf 25 0x155)).sampleLevel k = (ready 166 (bitsOf 25 0x155)).sampleLevel k := by
  decide +kernel
/-- TransferGuardsInOrder, SegmentsAddNothing, RequestsWithoutMeaningAreRefused: a state in each mode. -/
theorem test_witness_modes : (admitted 0x005 0 0 []).isBusy = true ∧ (powerOn 0).mode = .uninit ∧
    (faulted 0).mode = .faulted ∧ (ready 0 []).mode = .ready ∧ (ready 0 []).isBusy = false := by decide
/-- LeafFailureIsPrecise: the first and the last primitive of INIT. -/
theorem test_witness_init_fails : (requestEvents .init fun _ => .low)[0]? = some (.cfg .clk) ∧
    ({ powerOn 0 with platform := [.fails] } : State).platformFailsAt 0 ∧
    (requestEvents .init fun _ => .low)[9]? = some (.drive .rstN .high) ∧
    ({ powerOn 0 with platform := List.replicate 9 .completes ++ [.fails] } : State).platformFailsAt 9 := by decide
/-- LeafFailureIsPrecise: the last primitive of a write and of a read. -/
theorem test_witness_transfer_fails :
    (requestEvents (xfer false 0 5 0) fun _ => .low)[165]? = some (.drive .clk .low) ∧
    ({ ready 0 [] with platform := List.replicate 165 .completes ++ [.fails] } : State).platformFailsAt 165 ∧
    (requestEvents (xfer true 0 5 0) fun _ => .low)[170]? = some (.drive .clk .low) ∧
    ({ ready 0 [] with platform := List.replicate 170 .completes ++ [.fails] } : State).platformFailsAt 170 := by
  decide +kernel
/-- MicroOperationFaults. -/
theorem test_witness_micro_fails : ({ ready 0 [] with platform := [.fails] } : State).platformFailsAt 0 := by decide
/-- StepRunsDecodedOperation: a call that begins, one that does not, no call, and a call made at once in `Busy`. -/
theorem test_witness_calls : (begins (decode (.transfer [0x085, 0])) (ready 0 [])).isSome = true ∧
    begins (decode (.transfer [])) (ready 0 []) = none ∧ (ready 0 []).inbox = [] ∧
    (admitted 0x005 0 0 []).isBusy = true := by decide
/-- StepCompletesOnePrimitive, at the first position. -/
theorem test_witness_first_position : (admitted 0x085 0 1 []).mode = .busy .transfer ∧
    waits (admitted 0x085 0 1 []).inbox = true ∧ (admitted 0x085 0 1 []).txn.seq = .holds 0 ∧
    0 < transferLength ((0x085 : CmdWord).getLsbD 7) ∧ (admitted 0x085 0 1 []).platformTakes 1 := by decide
/-- StepCompletesOnePrimitive, at the last position of a write: the step ends in mode `Ready`. -/
theorem test_witness_last_position :
    165 + 1 = transferLength ((0x005 : CmdWord).getLsbD 7) ∧
    (after (step { admitted 0x005 0 1 [] with
      txn := ⟨.holds 0x005, .holds 0, .holds 0, .holds 0, .holds false, .holds 165⟩ })).map
      (fun t => (t.mode, t.responses)) = some (.ready, [.words 0 0]) := by decide +kernel
/-- StepsRunTheRequest. -/
theorem test_witness_request : let s := { ready 171 [] with inbox := [⟨.transfer [0x085, 0], .serialised⟩] }
    s.isBusy = false ∧ waits ([] : List HostCall) = true ∧
    (begins (decode (.transfer [0x085, 0])) { s with inbox := [] }).isSome = true ∧
    s.platformTakes (requestEvents (decode (.transfer [0x085, 0])) s.sampleLevel).length := by
  refine ⟨rfl, rfl, rfl, ?_⟩
  have len : (requestEvents (decode (.transfer [0x085, 0])) fun _ => .low).length = 171 := by decide +kernel
  have steer : ∀ answer, (requestEvents (decode (.transfer [0x085, 0])) answer).length =
      (requestEvents (decode (.transfer [0x085, 0])) fun _ => .low).length := by
    intro answer
    show (transferEvents _ _ answer).length = (transferEvents _ _ fun _ => .low).length
    rw [← transferSlots_events, ← transferSlots_events, slotEvents_length, slotEvents_length]
  rw [steer, len]
  decide +kernel
/-- AcceptedRequestEnds (with `test_admitted_inv`). -/
theorem test_witness_in_progress : (admitted 0x085 0 171 []).isBusy = true ∧
    waits (admitted 0x085 0 171 []).inbox = true := by decide

end Sys2Proof.Tests
end

section
/-!
PROOFS. The machine's step and its history (00_scope.md R7, R11; 10_state.md R27, R34, R45): what a step runs, which
events it may append, and how the steps of an accepted request come to `exec` of the decoded operation.
-/

namespace Sys2Proof.Machine

/-! ### What a step runs (R7, R58) -/

/-- Whatever a host requests, it decodes to a well-formed term (R57, R59). -/
theorem decode_wf (q : Request) : (decode q).wf = true := by
  cases q with
  | init => rfl
  | transfer ws => exact (Laws.Resolved.words ws).1
  | transferSegments segs =>
    show (decodeSegments segs).wf = true
    unfold decodeSegments
    split
    · exact (Laws.Resolved.words _).1
    · next shape =>
      have count : segs.length ≠ 1 := fun one => (List.length_eq_one_iff.mp one).elim shape
      simpa [Instr.wf] using count

/-- Settles O50: the idle step, the step that takes a call and the overlapping call, each by its own law. -/
theorem stepRunsDecodedOperation : Obligations.StepRunsDecodedOperation := by
  unfold Obligations.StepRunsDecodedOperation
  refine ⟨fun s c rest free call => ⟨fun t begun => ?_, fun unbegun => ?_, decode_wf c.request⟩,
    fun s free empty => step_idle free empty, fun s q rest busy call => ?_⟩
  · rw [step_call free call, begun]
  · rw [step_call free call, unbegun]
  · obtain ⟨job, mode⟩ := (State.isBusy_iff s).mp busy
    exact step_overlapping mode call

/-! ### Which events a step may append (R27, R34, R119) -/

/-- An entry of a primitive list contributes its event to the list's events. -/
theorem event_mem_slotEvents {sl : Slot} {slots : List Slot} (h : sl ∈ slots) (v : Level) :
    sl.leaf.event v ∈ slotEvents slots (fun _ => v) := by
  induction slots with
  | nil => cases h
  | cons head rest ih =>
    rcases List.mem_cons.mp h with rfl | later
    · exact List.mem_cons_self
    · exact List.mem_cons_of_mem _ (by simpa using ih later)

theorem wordEvents_allowed (value : BitVec 16) (n : Nat) (answer : Nat → Level) :
    (wordEvents value n answer).all Event.allowed = true := by
  have bit : ∀ b v, (bitEvents b v).all Event.allowed = true := fun _ _ => rfl
  simp only [wordEvents, List.all_flatMap, bit, List.all_eq_true, implies_true]

theorem turnaroundEvents_allowed (read : Bool) : (turnaroundEvents read).all Event.allowed = true := by
  cases read <;> rfl

/-- Whatever command, data and direction the registers hold, a transaction's list keeps to the line table. -/
theorem transferSlots_allowed (c : CmdWord) (d : DataWord) (read : Bool) (answer : Nat → Level) :
    (slotEvents (transferSlots c d read) answer).all Event.allowed = true := by
  have pulse : pulseEvents.all Event.allowed = true := rfl
  have settle : ∀ a, (slotEvents settleSlots a).all Event.allowed = true := fun _ => rfl
  have select : ∀ a, (slotEvents selectSlots a).all Event.allowed = true := fun _ => rfl
  have unselect : ∀ a, (slotEvents unselectSlots a).all Event.allowed = true := fun _ => rfl
  have dirOut : ∀ a, (slotEvents dirOutSlots a).all Event.allowed = true := fun _ => rfl
  simp only [transferSlots_eq, slotEvents_append, List.all_append, clockPulseSlots_events, exchangeWordSlots_events,
    turnaroundSlots_events, wordEvents_allowed, turnaroundEvents_allowed, pulse, settle, select, unselect, dirOut,
    Bool.and_true]

/-- No primitive list of a request holds an entry whose event R34 or R119 rules out. -/
theorem jobSlots_allowed {job : Job} {s : State} {sl : Slot} (h : sl ∈ jobSlots job s) (v : Level) :
    (sl.leaf.event v).allowed = true := by
  have all : ∀ answer, (slotEvents (jobSlots job s) answer).all Event.allowed = true := by
    cases job with
    | init => exact fun _ => rfl
    | transfer => exact transferSlots_allowed _ _ _
  exact List.all_eq_true.mp (all _) _ (event_mem_slotEvents h v)

/-- A step of the sequencer records the event of the entry it completes, or none. -/
theorem tick_hist {job : Job} {s t : State} (h : tick job s = .next t) :
    t.hist = s.hist ∨ ∃ e : Event, e.allowed = true ∧ t.hist = s.hist ++ [e] := by
  rcases tick_next h with rfl | ⟨sl, mem, ⟨-, done⟩ | ⟨-, rfl⟩⟩
  · exact .inl rfl
  · refine .inr ⟨_, jobSlots_allowed mem (s.sampleLevel 0), ?_⟩
    rcases done with rfl | rfl <;> simp
  · exact .inl rfl

/-- Accepting a request records no event. -/
theorem begins_decode_hist {q : Request} {s t : State} (h : begins (decode q) s = some t) : t.hist = s.hist := by
  rcases begins_decode h with ⟨-, -, rfl⟩ | ⟨c, d, -, rfl⟩ <;> rfl

/-- Settles O14: only the sequencer's step touches the history. -/
theorem historyGrowsByAllowedEvents : Obligations.HistoryGrowsByAllowedEvents := by
  unfold Obligations.HistoryGrowsByAllowedEvents
  intro s t h
  rcases step_cases h with ⟨job, -, ticked⟩ | ⟨-, -, rfl⟩ | ⟨c, rest, -, -, begun | ⟨answer, rfl⟩⟩
  · exact tick_hist ticked
  · exact .inl rfl
  · exact .inl (begins_decode_hist (s := { s with inbox := rest }) begun)
  · exact .inl rfl

/-! ### Runs of steps (R45) -/

/-- A fault ends a run. -/
theorem run_of_fault (n : Nat) {s : State} {f : Fault} (h : step s = .fault f) :
    Host.Core.run Sys2Proof.core (n + 1) s = .fault f := by
  have here : Sys2Proof.core.step s = .fault f := h
  simp only [Host.Core.run, here]

/-- So does a refusal. -/
theorem run_of_refused (n : Nat) {s : State} {r : Refusal} (h : step s = .refused r) :
    Host.Core.run Sys2Proof.core (n + 1) s = .refused r := by
  have here : Sys2Proof.core.step s = .refused r := h
  simp only [Host.Core.run, here]

/-- A run that reaches a state has a first step that does. -/
theorem run_succ_next {n : Nat} {s t : State} (h : Host.Core.run Sys2Proof.core (n + 1) s = .next t) :
    ∃ u : State, step s = .next u ∧ Host.Core.run Sys2Proof.core n u = .next t := by
  cases first : step s with
  | next u => exact ⟨u, rfl, by rwa [run_succ n first] at h⟩
  | fault f => rw [run_of_fault n first] at h; cases h
  | refused r => rw [run_of_refused n first] at h; cases h

/-- Settles O15, by induction on the number of steps, each of which appends as `historyGrowsByAllowedEvents` says. -/
theorem runOnlyAppendsToHistory : Obligations.RunOnlyAppendsToHistory := by
  unfold Obligations.RunOnlyAppendsToHistory
  intro n
  induction n with
  | zero =>
    intro s t h
    cases h
    exact ⟨[], by simp, by simp, by simp⟩
  | succ n ih =>
    intro s t h
    obtain ⟨u, first, later⟩ := run_succ_next h
    obtain ⟨new, grown, few, allowed⟩ := ih u t later
    rcases historyGrowsByAllowedEvents s u first with same | ⟨e, ok, one⟩
    · exact ⟨new, by rw [grown, same], by omega, allowed⟩
    · refine ⟨e :: new, by simp [grown, one], by simpa using few, ?_⟩
      exact List.forall_mem_cons.mpr ⟨ok, allowed⟩

/-! ### The steps of an accepted request (R11, R24) -/

/-- A run of `n` steps comes to `answer`, in mode `Busy` between its first step and its end. -/
def State.comesTo (s : State) (n : Nat) (answer : Host.Outcome State Fault Refusal) : Prop :=
  Host.Core.run Sys2Proof.core n s = answer ∧
    ∀ j, 0 < j → j < n → ∃ t : State, Host.Core.run Sys2Proof.core j s = .next t ∧ t.isBusy = true

theorem State.comesTo_one (s : State) : s.comesTo 1 (step s) := by
  refine ⟨?_, fun j pos lt => absurd lt (by omega)⟩
  cases first : step s with
  | next t => exact run_succ 0 first
  | fault f => exact run_of_fault 0 first
  | refused r => exact run_of_refused 0 first

/-- A step into mode `Busy` goes before a run from there. -/
theorem State.comesTo_succ {s t : State} {n : Nat} {answer : Host.Outcome State Fault Refusal}
    (first : step s = .next t) (busy : t.isBusy = true) (later : t.comesTo n answer) : s.comesTo (n + 1) answer := by
  refine ⟨by rw [run_succ n first]; exact later.1, fun j pos lt => ?_⟩
  obtain ⟨i, rfl⟩ : ∃ i, j = i + 1 := ⟨j - 1, by omega⟩
  rw [run_succ i first]
  rcases i with _ | i
  · exact ⟨t, rfl, busy⟩
  · exact later.2 (i + 1) (by omega) (by omega)

/-- The request `job` is in progress with the primitives `rest` still to come: its operands are latched, and the next
call waits for its end. -/
structure State.StandsBefore (s : State) (job : Job) (rest : List Slot) : Prop where
  mode : s.mode = .busy job
  calls : waits s.inbox = true
  operands : job = .transfer → ∃ c d read,
    s.txn.txCmd = .holds c ∧ s.txn.txData = .holds d ∧ s.txn.directionRead = .holds read
  position : ∃ k, s.txn.seq = .holds k ∧ (jobSlots job s).drop k = rest

/-- What an entry does to the accumulators touches neither the operands nor the position (R47). -/
theorem Slot.onTxn_keeps (sl : Slot) (v : Level) (t : TxnRegs) :
    (sl.onTxn v t).txCmd = t.txCmd ∧ (sl.onTxn v t).txData = t.txData ∧
      (sl.onTxn v t).directionRead = t.directionRead ∧ (sl.onTxn v t).seq = t.seq := by
  cases sl with
  | prim p => exact ⟨rfl, rfl, rfl, rfl⟩
  | opens x p => cases x <;> exact ⟨rfl, rfl, rfl, rfl⟩
  | takes x => cases x <;> exact ⟨rfl, rfl, rfl, rfl⟩

/-- A completed primitive leaves the rest of the list to come. -/
theorem State.StandsBefore.commit {s : State} {job : Job} {sl : Slot} {rest : List Slot}
    (h : s.StandsBefore job (sl :: rest)) : (sl.commit s.leafTried).StandsBefore job rest := by
  obtain ⟨mode, calls, operands, k, seq, left⟩ := h
  obtain ⟨keepCmd, keepData, keepRead, keepSeq⟩ := sl.onTxn_keeps (s.sampleLevel 0) s.txn
  have sameList : jobSlots job (sl.commit s.leafTried) = jobSlots job s := by
    cases job with
    | init => rfl
    | transfer =>
      obtain ⟨c, d, read, hc, hd, hr⟩ := operands rfl
      exact jobSlots_commit .transfer sl s c d read hc hd hr
  refine ⟨by simpa using mode, by simpa using calls, fun tr => ?_, k + 1, ?_, ?_⟩
  · obtain ⟨c, d, read, hc, hd, hr⟩ := operands tr
    exact ⟨c, d, read, by simp [TxnRegs.advance, keepCmd, hc], by simp [TxnRegs.advance, keepData, hd],
      by simp [TxnRegs.advance, keepRead, hr]⟩
  · simp [TxnRegs.advance, keepSeq, seq]
  · rw [sameList, ← List.drop_drop, left]
    rfl

/-- The sequencer performs the first entry that is left; with it the request completes where nothing else is left. -/
theorem State.StandsBefore.step_eq {s : State} {job : Job} {sl : Slot} {rest : List Slot}
    (h : s.StandsBefore job (sl :: rest)) :
    step s = if rest = [] then (perform sl s).requestOutcome job else (perform sl s).outcome := by
  obtain ⟨k, seq, left⟩ := h.position
  have here : (jobSlots job s)[k]? = some sl := by
    rw [← List.head?_drop, left]; rfl
  have last : k + 1 = (jobSlots job s).length ↔ rest = [] := by
    have len := congrArg List.length left
    rw [List.length_drop, List.length_cons] at len
    rw [← List.length_eq_zero_iff]
    omega
  rw [step_busy h.mode h.calls]
  unfold tick
  simp only [seq, Reg.read_holds, here, last]
  by_cases final : rest = [] <;> cases perform sl s <;>
    simp [final, LeafResult.requestOutcome, LeafResult.outcome]

/-- Where the platform does not perform the first entry, the list ends there and completes nothing (R97, R114). -/
theorem runSlots_stops {sl : Slot} {s : State} (stops : s.leafAnswer 0 ≠ .completes) (rest : List Slot) (job : Job) :
    runSlots (sl :: rest) s = perform sl s ∧ (perform sl s).requestOutcome job = (perform sl s).outcome := by
  rcases perform_cases sl s with ⟨a, -⟩ | ⟨-, p⟩ | ⟨-, p⟩
  · exact absurd a stops
  · simp [runSlots, p, LeafResult.requestOutcome, LeafResult.outcome]
  · simp [runSlots, p, LeafResult.requestOutcome, LeafResult.outcome]

/-- The steps of a request in progress come to what running the entries that are left comes to, in one step for each
entry where the platform performs them all, and otherwise in no more. -/
theorem State.StandsBefore.comesTo {job : Job} {rest : List Slot} {sl : Slot} {s : State}
    (h : s.StandsBefore job (sl :: rest)) :
    ∃ n, 0 < n ∧ n ≤ rest.length + 1 ∧ s.comesTo n ((runSlots (sl :: rest) s).requestOutcome job) ∧
      (s.platformTakes (rest.length + 1) → n = rest.length + 1) := by
  induction rest generalizing sl s with
  | nil =>
    have last : step s = (runSlots [sl] s).requestOutcome job := by
      rw [h.step_eq, if_pos rfl]
      cases p : perform sl s <;> simp [runSlots, p]
    exact ⟨1, by simp, by simp, last ▸ s.comesTo_one, fun _ => rfl⟩
  | cons next rest ih =>
    have inner : step s = (perform sl s).outcome := by rw [h.step_eq, if_neg (by simp)]
    by_cases done : s.leafAnswer 0 = .completes
    · have after := h.commit
      obtain ⟨n, pos, le, comes, all⟩ := ih after
      refine ⟨n + 1, by omega, by simpa using le, ?_, fun takes => ?_⟩
      · rw [perform_completes done] at inner
        have split : runSlots (sl :: next :: rest) s = runSlots (next :: rest) (sl.commit s.leafTried) := by
          rw [runSlots, perform_completes done]
        rw [split]
        exact State.comesTo_succ inner (State.isBusy_busy _ job after.mode) comes
      · rw [all (State.platformTakes_tail sl takes), List.length_cons]
    · obtain ⟨stopped, same⟩ := runSlots_stops (sl := sl) done (next :: rest) job
      refine ⟨1, by simp, by simp, ?_, fun takes => absurd (takes 0 (by simp)) done⟩
      rw [stopped, same, ← inner]
      exact s.comesTo_one

/-- The operations that stand before a first primitive: INIT and the transactions, admitted. -/
theorem begins_cases {i : Instr} {s t : State} (h : begins i s = some t) :
    (i = .init ∧ admitInit s = .ok t) ∨
      ∃ read r a v, i = xfer read r a v ∧ admitFrame (commandWord r read a) v s = .ok t := by
  have ok : ∀ {e : Except Refusal State}, e.toOption = some t → e = .ok t := by
    intro e he
    cases e with
    | error r => cases he
    | ok u => cases he; rfl
  cases i with
  | init => exact .inl ⟨rfl, ok h⟩
  | xferW r a v => exact .inr ⟨false, r, a, v, rfl, ok h⟩
  | xferR r a v => exact .inr ⟨true, r, a, v, rfl, ok h⟩
  | _ => cases h

/-- A transaction of either kind runs the list of the frame it admits. -/
theorem exec_xfer (read : Bool) (r : BitVec 1) (a : RegAddr) (v : DataWord) (s : State) :
    exec (xfer read r a v) s = runRequest .transfer (admitFrame (commandWord r read a) v s) := by
  cases read <;> rfl

theorem requestEvents_xfer (read : Bool) (r : BitVec 1) (a : RegAddr) (v : DataWord) (answer : Nat → Level) :
    requestEvents (xfer read r a v) answer = transferEvents (commandWord r read a) v answer := by
  cases read <;> rfl

/-- What `exec` answers to an operation that is accepted: its whole list, run from the state in which it begins. -/
theorem exec_of_begins {i : Instr} {s t : State} (h : begins i s = some t) (w : waits s.inbox = true) :
    ∃ job, t.StandsBefore job (jobSlots job t) ∧ exec i s = (runSlots (jobSlots job t) t).requestOutcome job ∧
      ∀ answer, (requestEvents i answer).length = (jobSlots job t).length := by
  rcases begins_cases h with ⟨rfl, adm⟩ | ⟨read, r, a, v, rfl, adm⟩
  · refine ⟨.init, ?_, ?_, fun answer => rfl⟩
    · obtain ⟨-, rfl⟩ := admitInit_ok adm
      exact ⟨rfl, w, fun tr => Job.noConfusion tr, 0, rfl, rfl⟩
    · show runRequest .init (admitInit s) = _
      rw [adm]
      rfl
  · refine ⟨.transfer, ?_, ?_, fun answer => ?_⟩
    · obtain ⟨-, rfl⟩ := admitFrame_ok adm
      exact ⟨rfl, w, fun _ => ⟨_, _, _, rfl, rfl, rfl⟩, 0, rfl, rfl⟩
    · rw [exec_xfer, adm]
      rfl
    · obtain ⟨-, rfl⟩ := admitFrame_ok adm
      rw [requestEvents_xfer, ← transferSlots_events, slotEvents_length]
      rfl

/-- Accepting a request asks nothing of the platform. -/
theorem begins_leafAnswer {i : Instr} {s t : State} (h : begins i s = some t) (k : Nat) :
    t.leafAnswer k = s.leafAnswer k := by
  rcases begins_cases h with ⟨rfl, adm⟩ | ⟨read, r, a, v, rfl, adm⟩
  · obtain ⟨-, rfl⟩ := admitInit_ok adm
    rfl
  · obtain ⟨-, rfl⟩ := admitFrame_ok adm
    rfl

/-- The list of a request has a first primitive, and at most 171 (R64, R76). -/
theorem jobSlots_length_bounds (job : Job) (s : State) :
    0 < (jobSlots job s).length ∧ (jobSlots job s).length ≤ 171 := by
  cases job with
  | init => simp [jobSlots]
  | transfer =>
    simp only [jobSlots, transferSlots_length, transferLength]
    split <;> omega

/-- Settles O52: the step that accepts the request, then the steps of its whole list. -/
theorem stepsRunTheRequest : Obligations.StepsRunTheRequest := by
  unfold Obligations.StepsRunTheRequest
  intro s c rest t free call wait begun
  obtain ⟨job, stands, execution, events⟩ := exec_of_begins begun wait
  obtain ⟨pos, bound⟩ := jobSlots_length_bounds job t
  have accept : step s = .next t := by rw [step_call free call, begun]
  obtain ⟨sl, later, list⟩ := List.exists_cons_of_length_pos pos
  rw [list] at stands execution events bound
  obtain ⟨n, npos, le, comes, all⟩ := stands.comesTo
  have whole : s.comesTo (n + 1) (exec (decode c.request) { s with inbox := rest }) := by
    rw [execution]
    exact State.comesTo_succ accept (State.isBusy_busy t job stands.mode) comes
  simp only [List.length_cons] at bound events
  refine ⟨⟨n + 1, by omega, by omega, whole.1, whole.2⟩, fun takes => ?_⟩
  have performs : t.platformTakes (later.length + 1) := by
    intro k hk
    rw [begins_leafAnswer begun]
    exact takes k (by rwa [events])
  rw [events, Nat.add_comm, ← all performs]
  exact whole.1

end Sys2Proof.Machine
end

section
/-!
PROOFS. The state (10_state.md R13 to R31): the mode invariant and the windows of a transaction, each kept by every
step, with what one primitive of a request does to the lines and to the accumulators.
-/

namespace Sys2Proof.Machine

/-! ### What a step does to the line registers (R17, R34, R104, R119) -/

/-- A step leaves the lines alone, applies one primitive that R34 and R119 allow, or forgets latches and directions. -/
theorem step_lines {s t : State} (h : step s = .next t) :
    t.lines = s.lines ∨ (∃ p : Prim, (p.event .low).allowed = true ∧ t.lines = s.lines.apply p) ∨
      t.lines = s.lines.forget := by
  rcases step_cases h with ⟨job, -, ticked⟩ | ⟨-, -, rfl⟩ | ⟨c, rest, -, -, begun | ⟨answer, rfl⟩⟩
  · rcases tick_next ticked with rfl | ⟨sl, mem, ⟨-, rfl | rfl⟩ | ⟨-, rfl⟩⟩
    · exact .inl rfl
    · exact .inr (.inl ⟨_, jobSlots_allowed mem .low, by simp⟩)
    · exact .inr (.inl ⟨_, jobSlots_allowed mem .low, by simp⟩)
    · exact .inr (.inr rfl)
  · exact .inl rfl
  · rcases begins_decode begun with ⟨-, -, rfl⟩ | ⟨c, d, -, rfl⟩ <;> exact .inl rfl
  · exact .inl rfl

/-- An allowed primitive configures `CLK` or `DATA` if it configures a line at all, and clears no flag. -/
theorem LineRegs.apply_allowed_cfg {p : Prim} {v : Level} (h : (p.event v).allowed = true) (r : LineRegs) :
    (r.apply p).cfg.enN = r.cfg.enN ∧ (r.apply p).cfg.rstN = r.cfg.rstN ∧
      (r.cfg.clk = true → (r.apply p).cfg.clk = true) ∧ (r.cfg.data = true → (r.apply p).cfg.data = true) := by
  cases p with
  | cfgFast l => cases l <;> simp_all [Prim.event, Event.allowed]
  | setDir l d => exact ⟨rfl, rfl, id, id⟩
  | drive l v => exact ⟨rfl, rfl, id, id⟩
  | sample l => exact ⟨rfl, rfl, id, id⟩
  | delay => exact ⟨rfl, rfl, id, id⟩

/-- An allowed primitive drives the reset line to no level but High. -/
theorem LineRegs.apply_allowed_rstN {p : Prim} {v : Level} (h : (p.event v).allowed = true) {r : LineRegs}
    (notLow : r.lat.rstN ≠ .holds .low) : (r.apply p).lat.rstN ≠ .holds .low := by
  cases p with
  | drive l w => cases l <;> simp_all [Prim.event, Event.allowed]
  | cfgFast l => exact notLow
  | setDir l d => exact notLow
  | sample l => exact notLow
  | delay => exact notLow

/-- Settles O12: of all a step does to the lines, only an allowed primitive touches a fast-mode flag. -/
theorem fastModeOnlyForClockAndData : Obligations.FastModeOnlyForClockAndData := by
  unfold Obligations.FastModeOnlyForClockAndData
  intro s t h
  rcases step_lines h with same | ⟨p, allowed, applied⟩ | forgot
  · rw [same]; exact ⟨rfl, rfl, id, id⟩
  · rw [applied]; exact LineRegs.apply_allowed_cfg allowed s.lines
  · rw [forgot]; exact ⟨rfl, rfl, id, id⟩

/-- Settles O13: of all a step does to the lines, only a drive writes a level to a latch. -/
theorem resetLineNeverDrivenLow : Obligations.ResetLineNeverDrivenLow := by
  unfold Obligations.ResetLineNeverDrivenLow
  intro s t notLow h
  rcases step_lines h with same | ⟨p, allowed, applied⟩ | forgot
  · rwa [same]
  · rw [applied]; exact LineRegs.apply_allowed_rstN allowed notLow
  · rw [forgot]; exact fun low => by cases low

/-! ### What one primitive does to the transaction registers (R21 to R24) -/

@[simp] theorem TxnRegs.advance_txCmd (n : Nat) (t : TxnRegs) : (t.advance n).txCmd = t.txCmd := rfl
@[simp] theorem TxnRegs.advance_txData (n : Nat) (t : TxnRegs) : (t.advance n).txData = t.txData := rfl
@[simp] theorem TxnRegs.advance_rxCmd (n : Nat) (t : TxnRegs) : (t.advance n).rxCmd = t.rxCmd := rfl
@[simp] theorem TxnRegs.advance_rxData (n : Nat) (t : TxnRegs) : (t.advance n).rxData = t.rxData := rfl
@[simp] theorem TxnRegs.advance_directionRead (n : Nat) (t : TxnRegs) :
    (t.advance n).directionRead = t.directionRead := rfl
@[simp] theorem TxnRegs.advance_seq (n : Nat) (t : TxnRegs) : (t.advance n).seq = t.seq.update (· + n) := rfl

theorem Slot.onTxn_rxCmd_ne_unspec (sl : Slot) (v : Level) {t : TxnRegs} (h : t.rxCmd ≠ .unspec) :
    (sl.onTxn v t).rxCmd ≠ .unspec := by
  obtain ⟨_, _, rxCmd, _, _, _⟩ := t
  cases sl with
  | prim p => exact h
  | opens x p => cases x <;> simp_all [Slot.onTxn, TxnRegs.clearRx]
  | takes x => cases x <;> cases rxCmd <;> simp_all [Slot.onTxn, TxnRegs.takeBit]

theorem Slot.onTxn_rxData_ne_unspec (sl : Slot) (v : Level) {t : TxnRegs} (h : t.rxData ≠ .unspec) :
    (sl.onTxn v t).rxData ≠ .unspec := by
  obtain ⟨_, _, _, rxData, _, _⟩ := t
  cases sl with
  | prim p => exact h
  | opens x p => cases x <;> simp_all [Slot.onTxn, TxnRegs.clearRx]
  | takes x => cases x <;> cases rxData <;> simp_all [Slot.onTxn, TxnRegs.takeBit]

/-- Primitive 9 of a transaction opens the accumulator of the command word (R76). -/
theorem transferSlots_opens_cmd (c : CmdWord) (d : DataWord) (read : Bool) :
    ∃ p, (transferSlots c d read)[9]? = some (.opens .cmd p) := by
  cases read <;> exact ⟨_, rfl⟩

/-- The first primitive of the data word opens the other accumulator (R76). -/
theorem transferSlots_opens_data (c : CmdWord) (d : DataWord) (read : Bool) :
    ∃ p, (transferSlots c d read)[dataStart read]? = some (.opens .data p) := by
  cases read <;> exact ⟨_, rfl⟩

/-- INIT's primitives touch no accumulator. -/
theorem initSlots_onTxn {sl : Slot} (h : sl ∈ initSlots) (v : Level) (t : TxnRegs) : sl.onTxn v t = t := by
  have plain : ∀ sl ∈ initSlots, ∃ p, sl = .prim p := by simp [initSlots]
  obtain ⟨p, rfl⟩ := plain sl h
  rfl

/-! ### The mode invariant (R14, R21 to R24, R30, R31, R104) -/

/-- What is left of a list does to the lines what its first primitive does, then the rest. -/
theorem linesAfter_drop {slots : List Slot} {k : Nat} (hk : k < slots.length) (r : LineRegs) :
    linesAfter (slots.drop k) r = linesAfter (slots.drop (k + 1)) (r.apply slots[k].leaf) := by
  rw [List.drop_eq_getElem_cons hk, linesAfter_cons]

/-- INIT leads to the line state of mode `Ready` from any (R65). -/
theorem LineRegs.afterInit_atRest (r : LineRegs) : r.afterInit.atRest := by
  simp [LineRegs.atRest, LineRegs.afterInit]

/-- A transaction leads from the line state of mode `Ready` back to it (R74). -/
theorem LineRegs.atRest.afterTransfer {r : LineRegs} (h : r.atRest) (d : DataWord) : (r.afterTransfer d).atRest := by
  obtain ⟨clk, data, enN, rstN, dir, cfgClk, cfgData⟩ := h
  simp [LineRegs.atRest, LineRegs.afterTransfer, rstN, dir, cfgClk, cfgData, Lines.all]

/-- A step of the sequencer inside its list `slots`: the primitive at the position completes and is the last, or
completes and is not, or fails. -/
theorem tick_at {job : Job} {s t : State} {slots : List Slot} {k : Nat} (list : jobSlots job s = slots)
    (seq : s.txn.seq = .holds k) (hk : k < slots.length) (h : tick job s = .next t) :
    (k + 1 = slots.length ∧ t = completeJob job (slots[k].commit s.leafTried)) ∨
      (k + 1 < slots.length ∧ t = slots[k].commit s.leafTried) ∨ t = takeLeafFault slots[k].leaf s.leafTried := by
  subst list
  rcases tick_cases seq hk h with ⟨-, rfl⟩ | ⟨-, rfl⟩
  · split
    · next last => exact .inl ⟨last, rfl⟩
    · next notLast => exact .inr (.inl ⟨by omega, rfl⟩)
  · exact .inr (.inr rfl)

theorem takeLeafFault_soundIn (p : Prim) (s : State) : (takeLeafFault p s).soundIn .faulted := ⟨rfl, rfl, rfl⟩

/-- A step of INIT leads to what its mode says of the state. -/
theorem State.initSound.tick {s t : State} (sound : s.initSound) (mode : s.mode = .busy .init)
    (h : tick .init s = .next t) : t.soundIn t.mode := by
  obtain ⟨k, txn, hk, left⟩ := sound
  rw [linesAfter_drop hk] at left
  rcases tick_at (slots := initSlots) (k := k) rfl (by rw [txn]) hk h with ⟨last, rfl⟩ | ⟨more, rfl⟩ | rfl
  · rw [last, List.drop_length, linesAfter_nil] at left
    exact ⟨by simpa using left, rfl⟩
  · rw [Slot.commit_mode, State.leafTried_mode, mode]
    refine ⟨k + 1, ?_, more, by simpa using left⟩
    simp [initSlots_onTxn (List.getElem_mem hk), txn, TxnRegs.advance]
  · exact takeLeafFault_soundIn _ _

/-- The list of a transaction whose operands are latched. -/
theorem jobSlots_transfer {s : State} {c : CmdWord} {d : DataWord} {read : Bool} (hc : s.txn.txCmd = .holds c)
    (hd : s.txn.txData = .holds d) (hr : s.txn.directionRead = .holds read) :
    jobSlots .transfer s = transferSlots c d read := by
  simp [jobSlots, hc, hd, hr]

/-- A step of a transaction leads to what its mode says of the state. -/
theorem State.transferSound.tick {s t : State} (sound : s.transferSound) (mode : s.mode = .busy .transfer)
    (h : tick .transfer s = .next t) : t.soundIn t.mode := by
  obtain ⟨c, d, k, hc, hd, hr, seq, hk, rxCmd, rxData, left⟩ := sound
  rw [← transferSlots_length c d] at hk
  rw [linesAfter_drop hk] at left
  rcases tick_at (jobSlots_transfer hc hd hr) seq hk h with ⟨last, rfl⟩ | ⟨more, rfl⟩ | rfl
  · rw [last, List.drop_length, linesAfter_nil] at left
    exact ⟨by simpa using left, rfl⟩
  · generalize here : (transferSlots c d (directionBit c))[k] = sl at left
    have at_k : (transferSlots c d (directionBit c))[k]? = some sl := by rw [List.getElem?_eq_getElem hk, here]
    obtain ⟨keepCmd, keepData, keepRead, keepSeq⟩ := sl.onTxn_keeps (s.sampleLevel 0) s.txn
    rw [Slot.commit_mode, State.leafTried_mode, mode]
    refine ⟨c, d, k + 1, by simp [keepCmd, hc], by simp [keepData, hd],
      by simp [keepRead, hr], by simp [keepSeq, seq],
      by rwa [← transferSlots_length c d], fun past => ?_, fun past => ?_, by simpa using left⟩
    · rcases Nat.lt_succ_iff_lt_or_eq.mp past with inside | rfl
      · simpa using sl.onTxn_rxCmd_ne_unspec _ (rxCmd inside)
      · obtain ⟨p, opens⟩ := transferSlots_opens_cmd c d (directionBit c)
        obtain rfl : Slot.opens .cmd p = sl := by simpa [opens] using at_k
        simp [Slot.onTxn, TxnRegs.clearRx]
    · rcases Nat.lt_succ_iff_lt_or_eq.mp past with inside | rfl
      · simpa using sl.onTxn_rxData_ne_unspec _ (rxData inside)
      · obtain ⟨p, opens⟩ := transferSlots_opens_data c d (directionBit c)
        obtain rfl : Slot.opens .data p = sl := by simpa [opens] using at_k
        simp [Slot.onTxn, TxnRegs.clearRx]
  · exact takeLeafFault_soundIn _ _

/-- INIT, once admitted, meets what its mode says of the state. -/
theorem initSound_of_admitted (s : State) :
    ({ s with mode := .busy .init, txn := { TxnRegs.unspec with seq := .holds 0 } } : State).initSound :=
  ⟨0, rfl, by decide, s.lines.afterInit_atRest⟩

/-- The state before the first primitive of a transaction (R21, R23, R24). -/
def State.admitted (s : State) (c : CmdWord) (d : DataWord) : State :=
  { s with
    mode := .busy .transfer
    txn := ⟨.holds c, .holds d, .unspec, .unspec, .holds (directionBit c), .holds 0⟩ }

theorem transferLength_pos (read : Bool) : 0 < transferLength read := by cases read <;> decide

/-- A transaction, once admitted, meets what its mode says of the state. -/
theorem transferSound_of_admitted {s : State} (rest : s.lines.atRest) (c : CmdWord) (d : DataWord) :
    (s.admitted c d).transferSound := by
  refine ⟨c, d, 0, rfl, rfl, rfl, rfl, transferLength_pos _, fun past => by omega, fun past => by omega, ?_⟩
  rw [List.drop_zero, transferSlots_lines]
  exact rest.afterTransfer d

/-- What a mode says of the state says nothing of the calls and the responses. -/
theorem State.soundIn_inbox_responses {s : State} {mode : Mode} (h : s.soundIn mode) (inbox : List HostCall)
    (responses : List Response) : ({ s with inbox := inbox, responses := responses } : State).soundIn mode := by
  cases mode with
  | busy job => cases job <;> exact h
  | uninit => exact h
  | ready => exact h
  | faulted => exact h

/-- What the modes say of the fields is kept by every step. -/
theorem step_keeps_soundIn {s t : State} (sound : s.soundIn s.mode) (h : step s = .next t) : t.soundIn t.mode := by
  rcases step_cases h with ⟨job, mode, ticked⟩ | ⟨-, -, rfl⟩ | ⟨c, rest, -, -, begun | ⟨answer, rfl⟩⟩
  · rw [mode] at sound
    cases job with
    | init => exact State.initSound.tick sound mode ticked
    | transfer => exact State.transferSound.tick sound mode ticked
  · exact sound
  · rcases begins_decode begun with ⟨-, -, rfl⟩ | ⟨c, d, ready, rfl⟩
    · exact initSound_of_admitted { s with inbox := rest }
    · rw [show s.mode = .ready from ready] at sound
      exact transferSound_of_admitted (s := { s with inbox := rest }) sound.1 c d
  · exact s.soundIn_inbox_responses sound rest _

/-- Settles O9: the flags by `fastModeOnlyForClockAndData`, the rest mode by mode. -/
theorem stepKeepsModeInvariant : Obligations.StepKeepsModeInvariant := by
  unfold Obligations.StepKeepsModeInvariant
  intro s t inv h
  obtain ⟨enN, rstN, sound⟩ := inv
  obtain ⟨keepEnN, keepRstN, -, -⟩ := fastModeOnlyForClockAndData s t h
  exact ⟨keepEnN.trans enN, keepRstN.trans rstN, step_keeps_soundIn sound h⟩

end Sys2Proof.Machine
end

section
/-!
PROOFS. The windows of a transaction (10_state.md R19; 41_transfer.md R72, R76; 70_reset_and_hazards.md R119): where in
a primitive list they open and close, and that every step keeps them.
-/

namespace Sys2Proof.Machine

/-! ### Line properties that a primitive list carries from position to position -/

/-- The entries of `slots`, which stands at positions `k`, `k + 1` and so on, carry the line property `P` from each
position to the next. -/
def carries (P : Nat → LineRegs → Prop) (k : Nat) (slots : List Slot) : Prop :=
  ∀ (i : Nat) (h : i < slots.length) (r : LineRegs), P (k + i) r → P (k + i + 1) (r.apply slots[i].leaf)

theorem carries.append {P : Nat → LineRegs → Prop} {k m : Nat} {a b : List Slot} (first : carries P k a)
    (place : k + a.length = m) (second : carries P m b) : carries P k (a ++ b) := by
  subst place
  intro i h r before
  by_cases inFirst : i < a.length
  · rw [List.getElem_append_left inFirst]
    exact first i inFirst r before
  · rw [List.length_append] at h
    have shift : k + a.length + (i - a.length) = k + i := by omega
    rw [List.getElem_append_right (by omega)]
    have step := second (i - a.length) (by omega) r
    rw [shift] at step
    exact step before

theorem carries_single {P : Nat → LineRegs → Prop} {k : Nat} {p : Prim}
    (h : ∀ r, P k r → P (k + 1) (r.apply p)) : carries P k [.prim p] := by
  intro i hi r before
  obtain rfl : i = 0 := by simpa using hi
  exact h r before

/-! ### The window of a transaction, position by position (R76) -/

/-- The events that touch neither the enable latch, nor the direction of `DATA`, nor the reset latch. -/
def Event.keepsWindow : Event → Bool
  | .cfg _ => true
  | .setDir l _ => l != .data
  | .drive l _ => l == .clk || l == .data
  | .sample _ _ => true
  | .delay => true

/-- Whether the primitive at position `k` changes the window: SELECT, UNSELECT and, on a read, DIR_IN and DIR_OUT. -/
def windowEdge (read : Bool) (k : Nat) : Bool :=
  k == 8 || k == transferLength read - 6 || read && (k == 63 || k == 166)

/-- A primitive of another kind leaves the three fields of the window alone. -/
theorem LineRegs.apply_keepsWindow {p : Prim} {v : Level} (h : (p.event v).keepsWindow = true) (r : LineRegs) :
    (r.apply p).lat.enN = r.lat.enN ∧ (r.apply p).dir.data = r.dir.data ∧ (r.apply p).lat.rstN = r.lat.rstN := by
  cases p with
  | cfgFast l => exact ⟨rfl, rfl, rfl⟩
  | setDir l d =>
    cases l with
    | data => cases h
    | clk | enN | rstN => exact ⟨rfl, rfl, rfl⟩
  | drive l w =>
    cases l with
    | clk | data => exact ⟨rfl, rfl, rfl⟩
    | enN | rstN => cases h
  | sample l => exact ⟨rfl, rfl, rfl⟩
  | delay => exact ⟨rfl, rfl, rfl⟩

/-- Away from the edges the window asks the same of the lines at a position and at the next. -/
theorem LineRegs.inWindow_succ {read : Bool} {k : Nat} (h : windowEdge read k = false) {r : LineRegs}
    (before : r.inWindow read k) : r.inWindow read (k + 1) := by
  obtain ⟨enN, dir, rstN⟩ := before
  simp only [windowEdge, Bool.or_eq_false_iff, beq_eq_false_iff_ne, Bool.and_eq_false_imp] at h
  obtain ⟨⟨notSelect, notUnselect⟩, notTurn⟩ := h
  have selected : (8 < k + 1 ∧ k + 1 < transferLength read - 5) ↔ 8 < k ∧ k < transferLength read - 5 := by omega
  have input : (read = true ∧ 63 < k + 1 ∧ k + 1 < 167) ↔ read = true ∧ 63 < k ∧ k < 167 := by
    refine and_congr_right fun isRead => ?_
    have := notTurn isRead
    omega
  exact ⟨by simpa only [selected] using enN, by simpa only [input] using dir, rstN⟩

/-- Entries that keep the window carry it past positions that are no edge. -/
theorem carries_inWindow_of_keeps {read : Bool} {k : Nat} {slots : List Slot}
    (keeps : ∀ answer, (slotEvents slots answer).all Event.keepsWindow = true)
    (inside : ∀ i < slots.length, windowEdge read (k + i) = false) : carries (LineRegs.inWindow read) k slots := by
  intro i h r before
  have kept : (slots[i].leaf.event .low).keepsWindow = true :=
    List.all_eq_true.mp (keeps _) _ (event_mem_slotEvents (List.getElem_mem h) .low)
  obtain ⟨enN, dir, rstN⟩ := r.apply_keepsWindow kept
  have next := LineRegs.inWindow_succ (inside i h) before
  unfold LineRegs.inWindow at next ⊢
  rwa [enN, dir, rstN]

theorem wordEvents_keepsWindow (value : BitVec 16) (n : Nat) (answer : Nat → Level) :
    (wordEvents value n answer).all Event.keepsWindow = true := by
  have bit : ∀ b v, (bitEvents b v).all Event.keepsWindow = true := fun _ _ => rfl
  simp only [wordEvents, List.all_flatMap, bit, List.all_eq_true, implies_true]

/-- A clock pulse away from the edges. -/
theorem clockPulseSlots_carries {read : Bool} {k : Nat} (inside : ∀ i < 4, windowEdge read (k + i) = false) :
    carries (LineRegs.inWindow read) k clockPulseSlots :=
  carries_inWindow_of_keeps (fun _ => rfl) inside

/-- A word exchange away from the edges. -/
theorem exchangeWordSlots_carries {read : Bool} {k : Nat} (x : Option Rx) (value : BitVec 16) (n : Nat)
    (inside : ∀ i < 6 * n, windowEdge read (k + i) = false) :
    carries (LineRegs.inWindow read) k (exchangeWordSlots x value n) :=
  carries_inWindow_of_keeps (by simp [wordEvents_keepsWindow]) (by simpa using inside)

/-- SELECT opens the select window. -/
theorem selectSlots_carries (read : Bool) : carries (LineRegs.inWindow read) 8 selectSlots :=
  carries_single fun r before => by
    cases read <;> simp_all [LineRegs.inWindow, transferLength]

/-- On a read DIR_IN opens the input window; a write has no turnaround. -/
theorem turnaroundSlots_carries (read : Bool) : carries (LineRegs.inWindow read) 63 (turnaroundSlots read) := by
  cases read with
  | false => exact fun i h => absurd h (by simp)
  | true =>
    have dirIn : carries (LineRegs.inWindow true) 63 dirInSlots := carries_single fun r before => by
      simp_all [LineRegs.inWindow, transferLength]
    exact dirIn.append rfl (clockPulseSlots_carries (k := 64) (by decide))

/-- UNSELECT closes the select window. -/
theorem unselectSlots_carries (read : Bool) :
    carries (LineRegs.inWindow read) (dataStart read + 97) unselectSlots :=
  carries_single fun r before => by
    cases read <;> simp_all [LineRegs.inWindow, transferLength, dataStart, Level.flip]

/-- DIR_OUT closes the input window of a read and changes nothing in a write. -/
theorem dirOutSlots_carries (read : Bool) : carries (LineRegs.inWindow read) (dataStart read + 98) dirOutSlots :=
  carries_single fun r before => by
    cases read <;> simp_all [LineRegs.inWindow, transferLength, dataStart]

/-- The list of a transaction carries the window from its first position to its end. -/
theorem transferSlots_carries (c : CmdWord) (d : DataWord) (read : Bool) :
    carries (LineRegs.inWindow read) 0 (transferSlots c d read) := by
  have pulse0 : ∀ i < 4, windowEdge read (0 + i) = false := by cases read <;> decide
  have pulse4 : ∀ i < 4, windowEdge read (4 + i) = false := by cases read <;> decide
  have cmd : ∀ i < 54, windowEdge read (9 + i) = false := by cases read <;> decide
  have data : ∀ i < 96, windowEdge read (dataStart read + i) = false := by cases read <;> decide
  have settle : ∀ i < 1, windowEdge read (dataStart read + 96 + i) = false := by cases read <;> decide
  have last : ∀ i < 4, windowEdge read (dataStart read + 99 + i) = false := by cases read <;> decide
  have turned : 63 + (turnaroundSlots read).length = dataStart read := by cases read <;> rfl
  simp only [transferSlots_eq, List.append_assoc]
  exact (clockPulseSlots_carries pulse0).append rfl <|
    (clockPulseSlots_carries pulse4).append rfl <|
    (selectSlots_carries read).append rfl <|
    (exchangeWordSlots_carries _ _ 9 cmd).append (by simp) <|
    (turnaroundSlots_carries read).append turned <|
    (exchangeWordSlots_carries _ _ 16 data).append (by simp) <|
    (carries_inWindow_of_keeps (slots := settleSlots) (fun _ => rfl) settle).append rfl <|
    (unselectSlots_carries read).append rfl <|
    (dirOutSlots_carries read).append rfl (clockPulseSlots_carries last)

/-! ### The windows as an invariant (R19, R64, R72, R119) -/

/-- What INIT has set once it stands at position `k`: `DATA` an output, the chip unselected (R64), and past its end out
of reset as well. -/
def LineRegs.inInitWindow (k : Nat) (r : LineRegs) : Prop :=
  (3 < k → r.dir.data = .holds .out) ∧ (8 < k → r.lat.enN = .holds .high) ∧ (9 < k → r.lat.rstN = .holds .high)

/-- INIT carries its window from position to position. -/
theorem initSlots_carries : carries LineRegs.inInitWindow 0 initSlots := by
  intro i h r before
  simp only [initSlots_length] at h
  interval_cases i <;> simp_all [LineRegs.inInitWindow, initSlots, Level.flip]

/-- At the end of a transaction the lines stand as in mode `Ready`. -/
theorem LineRegs.inWindow_ready {read : Bool} {r : LineRegs} (h : r.inWindow read (transferLength read)) :
    r.inWindow false 0 := by
  cases read <;> simpa [LineRegs.inWindow, transferLength] using h

/-- At its start too, for either kind. -/
theorem LineRegs.inWindow_start {r : LineRegs} (h : r.inWindow false 0) (read : Bool) : r.inWindow read 0 := by
  simpa [LineRegs.inWindow] using h

/-- What a mode says of the windows says nothing of the calls and the responses. -/
theorem State.windowIn_inbox_responses {s : State} {mode : Mode} (h : s.windowIn mode) (inbox : List HostCall)
    (responses : List Response) : ({ s with inbox := inbox, responses := responses } : State).windowIn mode := by
  cases mode with
  | busy job => cases job <;> exact h
  | uninit => exact h
  | ready => exact h
  | faulted => exact h

/-- A step of INIT leads to what its mode says of the windows. -/
theorem State.initWindow.tick {s t : State} (window : s.initWindow) (mode : s.mode = .busy .init)
    (h : tick .init s = .next t) : t.windowIn t.mode := by
  obtain ⟨k, seq, hk, data, enN⟩ := window
  rw [← initSlots_length] at hk
  have next := initSlots_carries k hk s.lines
    ⟨by simpa using data, by simpa using enN, fun past => by rw [initSlots_length] at hk; omega⟩
  rw [Nat.zero_add] at next
  obtain ⟨nextData, nextEnN, nextRstN⟩ := next
  rcases tick_at (slots := initSlots) rfl seq hk h with ⟨last, rfl⟩ | ⟨more, rfl⟩ | rfl
  · rw [initSlots_length] at last
    show LineRegs.inWindow false 0 _
    simp [LineRegs.inWindow, nextData (by omega), nextEnN (by omega), nextRstN (by omega)]
  · rw [Slot.commit_mode, State.leafTried_mode, mode]
    exact ⟨k + 1, by simp [initSlots_onTxn (List.getElem_mem hk), seq], more, by simpa using nextData,
      by simpa using nextEnN⟩
  · exact trivial

/-- A step of a transaction leads to what its mode says of the windows. -/
theorem State.transferWindow.tick {s t : State} (window : s.transferWindow) (mode : s.mode = .busy .transfer)
    (h : tick .transfer s = .next t) : t.windowIn t.mode := by
  obtain ⟨c, k, hc, hr, seq, hk, lines⟩ := window
  obtain ⟨d, list⟩ : ∃ d, jobSlots .transfer s = transferSlots c d (directionBit c) := by
    simp only [jobSlots, hc, hr, Reg.read_holds]
    exact ⟨_, rfl⟩
  rw [← transferSlots_length c d] at hk
  have next := transferSlots_carries c d (directionBit c) k hk s.lines (by rwa [Nat.zero_add])
  rw [Nat.zero_add] at next
  rcases tick_at list seq hk h with ⟨last, rfl⟩ | ⟨more, rfl⟩ | rfl
  · rw [last, transferSlots_length] at next
    simpa [State.windowIn] using LineRegs.inWindow_ready next
  · generalize (transferSlots c d (directionBit c))[k] = sl at next ⊢
    obtain ⟨keepCmd, -, keepRead, keepSeq⟩ := sl.onTxn_keeps (s.sampleLevel 0) s.txn
    rw [Slot.commit_mode, State.leafTried_mode, mode]
    exact ⟨c, k + 1, by simp [keepCmd, hc], by simp [keepRead, hr], by simp [keepSeq, seq],
      by rwa [← transferSlots_length c d], by rwa [Slot.commit_lines, State.leafTried_lines]⟩
  · exact trivial

/-- Settles O10, mode by mode: an admitted request starts inside its window, and its list carries the window on. -/
theorem stepKeepsSelectWindow : Obligations.StepKeepsSelectWindow := by
  unfold Obligations.StepKeepsSelectWindow State.windowInv
  intro s t window h
  rcases step_cases h with ⟨job, mode, ticked⟩ | ⟨-, -, rfl⟩ | ⟨c, rest, -, -, begun | ⟨answer, rfl⟩⟩
  · rw [mode] at window
    cases job with
    | init => exact State.initWindow.tick window mode ticked
    | transfer => exact State.transferWindow.tick window mode ticked
  · exact window
  · rcases begins_decode begun with ⟨-, -, rfl⟩ | ⟨c, d, ready, rfl⟩
    · exact ⟨0, rfl, by decide, fun past => by omega, fun past => by omega⟩
    · rw [show s.mode = .ready from ready] at window
      exact ⟨c, 0, rfl, rfl, rfl, transferLength_pos _, LineRegs.inWindow_start window (directionBit c)⟩
  · exact s.windowIn_inbox_responses window rest _

end Sys2Proof.Machine
end

section
/-!
PROOFS. The modes, the calls and the position (10_state.md R14, R18, R24, R25, R30): power-on, acceptance, the step of
the sequencer inside a transaction, and what every step does to the mode and to the count of requests.
-/

namespace Sys2Proof.Machine

/-! ### Power-on and pins (R18, R30) -/

/-- Settles O7: the fields are those of `State.reset`, where no call is to come. -/
theorem powerOnState : Obligations.PowerOnState := by
  unfold Obligations.PowerOnState
  exact ⟨rfl, Lines.get_all _, Lines.get_all _, Lines.get_all _, rfl, rfl, step_idle rfl rfl⟩

/-- Settles O8: in mode `Uninit` the invariants ask for the values at power-on. -/
theorem powerOnMeetsInvariants : Obligations.PowerOnMeetsInvariants := by
  unfold Obligations.PowerOnMeetsInvariants
  exact ⟨⟨rfl, rfl, rfl, rfl, rfl⟩, trivial⟩

/-- The pin of a line the transceiver drives shows what the latch does (R18). -/
theorem State.pin_of_out {s : State} {l : Line} (h : s.lines.dir.get l = .holds .out) : s.pin l = s.latchLevel l := by
  simp [State.pin, h]

/-- The pin of an input line is the environment's (R18). -/
theorem State.pin_of_inp {s : State} {l : Line} (h : s.lines.dir.get l = .holds .inp) :
    s.pin l = Config.undrivenPin l s.leafDraws := by
  simp [State.pin, h]

theorem State.latchLevel_of_holds {s : State} {l : Line} {v : Level} (h : s.lines.lat.get l = .holds v) :
    s.latchLevel l = v := by
  simp [State.latchLevel, h]

/-- Settles O17: a driven line shows its latch, and the latch holds a level. -/
theorem drivenPinShowsLatch : Obligations.DrivenPinShowsLatch := by
  unfold Obligations.DrivenPinShowsLatch
  intro s l v dir lat
  rw [State.pin_of_out dir, State.latchLevel_of_holds lat]

/-! ### Mode changes and the count of requests (R14, R25) -/

@[simp] theorem Mode.mayBecome_self (m : Mode) : m.mayBecome m = true := by
  cases m with
  | busy job => cases job <;> rfl
  | uninit => rfl
  | ready => rfl
  | faulted => rfl

/-- A request may end in mode `Ready` or `Faulted`. -/
theorem Mode.mayBecome_of_busy (job : Job) :
    (Mode.busy job).mayBecome .ready = true ∧ (Mode.busy job).mayBecome .faulted = true := by
  cases job <;> exact ⟨rfl, rfl⟩

/-- INIT may begin in every mode but `Busy` (R66). -/
theorem Mode.mayBecome_init {s : State} (free : s.isBusy = false) : s.mode.mayBecome (.busy .init) = true := by
  cases mode : s.mode with
  | busy job => rw [State.isBusy_busy s job mode] at free; cases free
  | uninit => rfl
  | ready => rfl
  | faulted => rfl

/-- Settles O11: the sequencer keeps the mode or ends the request; acceptance is R66's and R68's. -/
theorem modeChangesOnlyAsSpecified : Obligations.ModeChangesOnlyAsSpecified := by
  unfold Obligations.ModeChangesOnlyAsSpecified
  intro s t h
  rcases step_cases h with ⟨job, mode, ticked⟩ | ⟨-, -, rfl⟩ | ⟨c, rest, -, -, begun | ⟨answer, rfl⟩⟩
  · obtain ⟨ready, faulted⟩ := Mode.mayBecome_of_busy job
    rcases tick_next ticked with rfl | ⟨sl, -, ⟨-, rfl | rfl⟩ | ⟨-, rfl⟩⟩
    · simpa [mode] using ready
    · simp
    · simpa [mode] using ready
    · simpa [mode] using faulted
  · simp
  · rcases begins_decode begun with ⟨-, free, rfl⟩ | ⟨c, d, ready, rfl⟩
    · exact Mode.mayBecome_init (s := s) free
    · rw [show s.mode = .ready from ready]; rfl
  · simp

theorem State.outstanding_busy {s : State} {job : Job} (h : s.mode = .busy job) : s.outstanding = 1 := by
  simp [State.outstanding, State.isBusy_busy s job h]

theorem State.outstanding_free {s : State} (h : s.isBusy = false) : s.outstanding = 0 := by
  simp [State.outstanding, h]

/-- Where a step ends the request in progress with one response, the count stays. -/
theorem State.count_of_answered {s t : State} {answer : Response} (before : s.outstanding = 1)
    (after : t.outstanding = 0) (inbox : t.inbox = s.inbox) (responses : t.responses = s.responses ++ [answer]) :
    t.inbox.length + t.outstanding + t.responses.length =
      s.inbox.length + s.outstanding + s.responses.length := by
  rw [before, after, inbox, responses, List.length_append, List.length_singleton]
  omega

/-- Settles O16: the sequencer answers the request where it ends it; a call is accepted or answered, never both. -/
theorem eachRequestAnsweredOnce : Obligations.EachRequestAnsweredOnce := by
  unfold Obligations.EachRequestAnsweredOnce
  intro s t h
  rcases step_cases h with ⟨job, mode, ticked⟩ | ⟨-, -, rfl⟩ | ⟨c, rest, free, call, begun | ⟨answer, rfl⟩⟩
  · have before := State.outstanding_busy mode
    rcases tick_next ticked with rfl | ⟨sl, -, ⟨-, rfl | rfl⟩ | ⟨-, rfl⟩⟩
    · exact State.count_of_answered before (State.outstanding_free rfl) rfl rfl
    · have after : (sl.commit s.leafTried).outstanding = 1 := State.outstanding_busy (job := job) (by simpa using mode)
      simp [before, after]
    · exact State.count_of_answered before (State.outstanding_free rfl) (by simp)
        (by rw [completeJob_responses, Slot.commit_responses, State.leafTried_responses])
    · exact State.count_of_answered before (State.outstanding_free rfl) rfl rfl
  · rfl
  · rw [call, State.outstanding_free free]
    rcases begins_decode begun with ⟨-, -, rfl⟩ | ⟨c, d, -, rfl⟩
    · rw [State.outstanding_busy (job := .init) rfl]; simp
    · rw [State.outstanding_busy (job := .transfer) rfl]; simp
  · have after : ({ s with inbox := rest, responses := s.responses ++ [answer] } : State).outstanding = 0 :=
      State.outstanding_free free
    rw [call, State.outstanding_free free, after]
    simp only [List.length_cons, List.length_append, List.length_nil]
    omega

/-! ### Acceptance (R21, R23, R55) -/

/-- The three fields of a command word make it up again (R49). -/
theorem commandWord_fields (c : CmdWord) : commandWord (reservedBit c) (directionBit c) (addrField c) = c := by
  apply BitVec.eq_of_getLsbD_eq
  intro i hi
  rw [getLsbD_commandWord]
  split
  · next address => simp [addrField, address]
  · split
    · obtain rfl : i = 7 := by omega
      simp [directionBit]
    · obtain rfl : i = 8 := by omega
      simp [reservedBit]

/-- A word list of two words is the transaction of its first nine bits, and admitted as such. -/
theorem begins_decodeFrame (w0 w1 : HostWord) (s : State) :
    begins (decodeFrame w0 w1) s = (admitFrame (cmdField w0) w1 s).toOption := by
  have fields := commandWord_fields (cmdField w0)
  unfold decodeFrame
  dsimp only
  split
  · next read =>
    rw [read] at fields
    rw [begins, fields]
  · next write =>
    rw [Bool.not_eq_true] at write
    rw [write] at fields
    rw [begins, fields]

/-- What a transaction admitted in mode `Ready` starts from. -/
theorem admitFrame_ready {s : State} (h : s.mode = .ready) (c : CmdWord) (d : DataWord) :
    admitFrame c d s = .ok (s.admitted c d) := by
  simp [admitFrame, h, State.admitted]

/-- The direction bit of the nine bits latched is bit 7 of the host's word (R52, R55). -/
theorem directionBit_cmdField (w : HostWord) : directionBit (cmdField w) = w.getLsbD 7 := by
  simp [directionBit, cmdField]

/-- The step that accepts a call stands before its first primitive. -/
theorem step_accepts {s t : State} {c : HostCall} {rest : List HostCall} (free : s.isBusy = false)
    (call : s.inbox = c :: rest) (begun : begins (decode c.request) { s with inbox := rest } = some t) :
    step s = .next t := by
  rw [step_call free call, begun]

/-- Settles O5: the step takes the call, whose transaction is admitted. -/
theorem admissionLatchesOperands : Obligations.AdmissionLatchesOperands := by
  unfold Obligations.AdmissionLatchesOperands
  intro w0 w1 timing rest s ready call
  have begun := begins_decodeFrame w0 w1 { s with inbox := rest }
  rw [admitFrame_ready (s := { s with inbox := rest }) ready, State.admitted, directionBit_cmdField] at begun
  exact step_accepts (by simp [State.isBusy, ready]) call begun

/-! ### One primitive of a transaction (R24, R76) -/

/-- Where every sample answers `v`, the events of a list are those of its entries one by one. -/
theorem slotEvents_const (slots : List Slot) (v : Level) :
    slotEvents slots (fun _ => v) = slots.map fun sl => sl.leaf.event v := by
  induction slots with
  | nil => rfl
  | cons sl rest ih => simp [slotEvents, ih]

/-- Settles O51: `S.seq` names the entry that the step performs, and the mode leaves `Busy` with the last. -/
theorem stepCompletesOnePrimitive : Obligations.StepCompletesOnePrimitive := by
  unfold Obligations.StepCompletesOnePrimitive
  intro c d k s mode calls hc hd hr seq hk takes
  have list : jobSlots .transfer s = transferSlots c d (directionBit c) := jobSlots_transfer hc hd hr
  rw [show c.getLsbD 7 = directionBit c from rfl, ← transferSlots_length c d] at hk ⊢
  have stands : s.StandsBefore .transfer
      ((transferSlots c d (directionBit c))[k] :: (transferSlots c d (directionBit c)).drop (k + 1)) :=
    ⟨mode, calls, fun _ => ⟨c, d, _, hc, hd, hr⟩, k, seq, by rw [list, List.drop_eq_getElem_cons hk]⟩
  have event : (transferEvents c d fun _ => s.sampleLevel 0)[k]? =
      some ((transferSlots c d (directionBit c))[k].leaf.event (s.sampleLevel 0)) := by
    rw [← transferSlots_events, slotEvents_const, List.getElem?_map, List.getElem?_eq_getElem hk]
    rfl
  have step := stands.step_eq
  simp only [perform_completes (takes 0 (by omega)), List.drop_eq_nil_iff] at step
  generalize (transferSlots c d (directionBit c))[k] = sl at step event
  obtain ⟨-, -, -, keepSeq⟩ := sl.onTxn_keeps (s.sampleLevel 0) s.txn
  by_cases last : (transferSlots c d (directionBit c)).length ≤ k + 1
  · rw [if_pos last] at step
    exact ⟨_, _, step, event, by simp, fun more => by omega, fun _ => rfl⟩
  · rw [if_neg last] at step
    exact ⟨_, _, step, event, by simp, fun _ => ⟨by simpa using mode, by simp [keepSeq, seq]⟩, fun done => by omega⟩

end Sys2Proof.Machine
end

section
/-!
PROOFS. Operations carried out to their end where the platform performs them: the micro-operations (42_exchange.md R79
to R82, R88), INIT (40_initialize.md R64, R65) and the transactions (41_transfer.md R71 to R74).
-/

namespace Sys2Proof.Machine

/-! ### Micro-operations (R79 to R82, R88) -/

/-- A micro-operation whose primitives the platform performs. -/
theorem outcome_runSlots {slots : List Slot} {s : State} (h : s.platformTakes slots.length) :
    (runSlots slots s).outcome = .next (afterSlots slots s) := by
  rw [runSlots_completes h, LeafResult.outcome]

/-- Settles O18: SETTLE's list is one delay. -/
theorem settleIsOneDelay : Obligations.SettleIsOneDelay := by
  unfold Obligations.SettleIsOneDelay
  exact fun s takes => outcome_runSlots (slots := settleSlots) takes

/-- Settles O19: CLOCK_PULSE's list drives the clock twice, last to Low. -/
theorem clockPulseRisesThenFalls : Obligations.ClockPulseRisesThenFalls := by
  unfold Obligations.ClockPulseRisesThenFalls
  exact fun s takes => outcome_runSlots (slots := clockPulseSlots) takes

/-- The level of a bit (R8). -/
theorem lvl_eq_ite (b : Bool) : lvl b = if b then .high else .low := by cases b <;> rfl

/-- Settles O20: the drive writes the latch, which the pin shows on an output line only. -/
theorem dataOutWritesLatch : Obligations.DataOutWritesLatch := by
  unfold Obligations.DataOutWritesLatch
  intro b s takes
  rw [← lvl_eq_ite b]
  refine ⟨_, outcome_runSlots (slots := dataOutSlots b) takes, rfl, fun out => ?_, fun inp => ?_⟩
  · exact drivenPinShowsLatch _ .data _ out rfl
  · exact State.pin_of_inp (l := .data) inp

/-- Settles O21: DATA_IN's list is one sample, whose answer the event records. -/
theorem dataInSamplesEnvironment : Obligations.DataInSamplesEnvironment := by
  unfold Obligations.DataInSamplesEnvironment
  exact fun s takes => outcome_runSlots (slots := dataInSlots none) takes

/-- The levels that a word exchange drives on `DATA`: its bits, most significant first (R84). -/
theorem wordEvents_dataDriven (value : BitVec 16) (n : Nat) (answer : Nat → Level) :
    (wordEvents value n answer).filterMap Event.dataDriven =
      (List.range n).map fun t => lvl (value.getLsbD (n - 1 - t)) := by
  have bit : ∀ b v, (bitEvents b v).filterMap Event.dataDriven = [lvl b] := fun _ _ => rfl
  simp only [wordEvents, List.filterMap_flatMap, bit]
  exact List.map_eq_flatMap.symm

/-- The last of them is bit 0. -/
theorem wordEvents_dataDriven_getLast? (value : BitVec 16) {n : Nat} (h : 0 < n) (answer : Nat → Level) :
    ((wordEvents value n answer).filterMap Event.dataDriven).getLast? = some (lvl (value.getLsbD 0)) := by
  obtain ⟨i, rfl⟩ : ∃ i, n = i + 1 := ⟨n - 1, by omega⟩
  simp [wordEvents_dataDriven, List.range_succ]

theorem wordEvents_length (value : BitVec 16) (n : Nat) (answer : Nat → Level) :
    (wordEvents value n answer).length = 6 * n := by
  rw [← exchangeBitsSlots_events none, slotEvents_length, exchangeBitsSlots_length]

/-- The events of a transaction before UNSELECT. -/
def eventsToUnselect (c : CmdWord) (d : DataWord) (answer : Nat → Level) : List Event :=
  pulseEvents ++ pulseEvents ++ [.drive .enN .low]
    ++ wordEvents (c.setWidth 16) 9 answer
    ++ turnaroundEvents (c.getLsbD 7)
    ++ wordEvents d 16 (fun k => answer (9 + k)) ++ [.delay]

theorem transferEvents_eq (c : CmdWord) (d : DataWord) (answer : Nat → Level) :
    transferEvents c d answer =
      eventsToUnselect c d answer ++ ([.drive .enN .high, .setDir .data .out] ++ pulseEvents) := by
  simp [transferEvents, eventsToUnselect]

theorem turnaroundEvents_length (read : Bool) : (turnaroundEvents read).length = if read then 5 else 0 := by
  cases read <;> rfl

/-- They are as many as the position of UNSELECT in the table of R76. -/
theorem eventsToUnselect_length (c : CmdWord) (d : DataWord) (answer : Nat → Level) :
    (eventsToUnselect c d answer).length = if c.getLsbD 7 then 165 else 160 := by
  simp only [eventsToUnselect, List.length_append, wordEvents_length, turnaroundEvents_length]
  cases c.getLsbD 7 <;> rfl

/-- The last level driven on `DATA` before UNSELECT is bit 0 of the data word. -/
theorem eventsToUnselect_dataDriven_getLast? (c : CmdWord) (d : DataWord) (answer : Nat → Level) :
    ((eventsToUnselect c d answer).filterMap Event.dataDriven).getLast? = some (lvl (d.getLsbD 0)) := by
  have last := wordEvents_dataDriven_getLast? d (n := 16) (by decide) fun k => answer (9 + k)
  have settle : [Event.delay].filterMap Event.dataDriven = [] := rfl
  rw [eventsToUnselect, List.filterMap_append, List.filterMap_append, settle, List.append_nil,
    List.getLast?_append, last]
  rfl

/-- Settles O25: DIR_OUT's list is one change of direction; its place in a transaction is right after UNSELECT. -/
theorem dirOutTurnsDataToOutput : Obligations.DirOutTurnsDataToOutput := by
  unfold Obligations.DirOutTurnsDataToOutput
  refine ⟨fun s takes => ?_, fun c d answer => ⟨?_, ?_⟩⟩
  · refine ⟨_, outcome_runSlots (slots := dirOutSlots) takes, rfl, fun v lat => ?_, fun out => ?_⟩
    · exact drivenPinShowsLatch _ .data _ rfl lat
    · show { s.lines with dir := { s.lines.dir with data := .holds .out } } = s.lines
      rw [← out]
  · rw [transferEvents_eq, ← eventsToUnselect_length c d answer, List.drop_left]
    rfl
  · have count : (if c.getLsbD 7 then 166 else 161) = (eventsToUnselect c d answer).length + 1 := by
      rw [eventsToUnselect_length]; split <;> rfl
    have unselect : (([Event.drive .enN .high, .setDir .data .out] ++ pulseEvents).take 1).filterMap Event.dataDriven =
        [] := rfl
    rw [transferEvents_eq, count, List.take_length_add_append, List.filterMap_append, unselect, List.append_nil,
      eventsToUnselect_dataDriven_getLast?]

/-! ### INIT (R64 to R66) -/

/-- INIT admitted in any mode but `Busy`. -/
theorem admitInit_free {s : State} (h : s.isBusy = false) :
    admitInit s = .ok { s with mode := .busy .init, txn := { TxnRegs.unspec with seq := .holds 0 } } := by
  simp [admitInit, h]

/-- INIT whose ten primitives the platform performs, all of its effect. -/
theorem exec_init_completes {s : State} (free : s.isBusy = false) (takes : s.platformTakes 10) :
    exec .init s = .next s.afterInitRequest := by
  show runRequest .init (admitInit s) = _
  rw [admitInit_free free, runRequest, runSlots_completes takes]
  rfl

/-- Settles O29: the fields of the state that INIT answers. -/
theorem initLeavesReadyState : Obligations.InitLeavesReadyState := by
  unfold Obligations.InitLeavesReadyState
  intro s free takes
  refine ⟨_, exec_init_completes free takes, rfl, rfl, rfl, rfl, Lines.get_all _, rfl, rfl, rfl, rfl, rfl, rfl⟩

/-! ### Transactions (R71 to R74) -/

/-- The response of a transaction whose list has run: the two words that the samples spell (R56, R73). -/
theorem jobResponse_afterSlots (s : State) (c : CmdWord) (d : DataWord) (read : Bool) :
    jobResponse .transfer (afterSlots (transferSlots c d read) s) =
      .words (BitVec.ofNat 16 (sampledWord 9 s.sampleLevel))
        (BitVec.ofNat 16 (sampledWord 16 fun k => s.sampleLevel (9 + k))) := by
  have bound := sampledWord_lt 9 s.sampleLevel
  have echo : echoWord (BitVec.ofNat 9 (sampledWord 9 s.sampleLevel)) =
      BitVec.ofNat 16 (sampledWord 9 s.sampleLevel) := by
    apply BitVec.eq_of_toNat_eq
    rw [echoWord, BitVec.toNat_setWidth, BitVec.toNat_ofNat, BitVec.toNat_ofNat]
    omega
  simp [jobResponse, afterSlots, transferSlots_txn, echo]

/-- The state that completes a transaction's list is that of R71 to R74. -/
theorem completeJob_afterSlots (s : State) (c : CmdWord) (d : DataWord) :
    completeJob .transfer (afterSlots (transferSlots c d (directionBit c)) (s.admitted c d)) = s.afterTransfer c d := by
  have answers : (s.admitted c d).sampleLevel = s.sampleLevel := rfl
  rw [completeJob, jobResponse_afterSlots]
  simp only [answers, afterSlots, transferSlots_length, transferSlots_samples, transferSlots_lines,
    transferSlots_events]
  rfl

/-- A transaction of either kind, accepted and performed to its end, all of its effect. -/
theorem exec_xfer_completes (read : Bool) (r : BitVec 1) (a : RegAddr) (v : DataWord) {s : State}
    (ready : s.mode = .ready) (takes : s.platformTakes (transferLength read)) :
    exec (xfer read r a v) s = .next (s.afterTransfer (commandWord r read a) v) := by
  have adm : admitFrame (commandWord r read a) v s = .ok (s.admitted (commandWord r read a) v) :=
    admitFrame_ready ready _ _
  have list : jobSlots .transfer (s.admitted (commandWord r read a) v) =
      transferSlots (commandWord r read a) v (directionBit (commandWord r read a)) := rfl
  have performs : (s.admitted (commandWord r read a) v).platformTakes
      (transferSlots (commandWord r read a) v (directionBit (commandWord r read a))).length := by
    rw [transferSlots_length, directionBit_commandWord]
    exact takes
  rw [exec_xfer, adm, runRequest, list, runSlots_completes performs, LeafResult.requestOutcome, completeJob_afterSlots]

/-- Settles O33: the fields of the state that a transaction answers, from the line state of mode `Ready`. -/
theorem stateAfterTransaction : Obligations.StateAfterTransaction := by
  unfold Obligations.StateAfterTransaction
  intro read r a v s inv ready takes
  obtain ⟨-, -, sound⟩ := inv
  rw [ready] at sound
  obtain ⟨⟨clk, data, enN, rstN, dir, -, -⟩, -⟩ := sound
  have outputs : (s.lines.afterTransfer v).dir = s.lines.dir := by simp [LineRegs.afterTransfer, dir, Lines.all]
  rw [← lvl_eq_ite]
  refine ⟨_, exec_xfer_completes read r a v ready takes, rfl, rfl, rfl, rfl, rstN, rfl, outputs, fun l => ?_, rfl, ?_,
    rfl, rfl, rfl⟩
  · show (s.lines.afterTransfer v).dir.get l = _
    rw [outputs, dir, Lines.get_all]
  · exact drivenPinShowsLatch _ .data _ rfl rfl

end Sys2Proof.Machine
end

section
/-!
PROOFS. What a transaction drives on `DATA` (41_transfer.md R71, 30_encoding.md R51).
-/

namespace Sys2Proof.Machine

/-! ### The frame on the wire (R36, R37, R51) -/

/-- The bits of the frame, word by word. -/
theorem getLsbD_frame25 (c : CmdWord) (d : DataWord) (i : Nat) :
    (frame25 c d).getLsbD i = if i < 16 then d.getLsbD i else c.getLsbD (i - 16) :=
  BitVec.getLsbD_append

/-- The frame, most significant bit first: the nine bits of the command word, then the sixteen of the data word. -/
theorem frame25_levels (c : CmdWord) (d : DataWord) :
    ((List.range 25).map fun k => lvl ((frame25 c d).getLsbD (24 - k))) =
      ((List.range 9).map fun t => lvl (c.getLsbD (8 - t))) ++
        (List.range 16).map fun t => lvl (d.getLsbD (15 - t)) := by
  have positions : List.range 25 = List.range 9 ++ (List.range 16).map (9 + ·) := List.range_add (n := 9) (m := 16)
  rw [positions, List.map_append, List.map_map]
  congr 1
  · refine List.map_congr_left fun t first => ?_
    have inCommand : ¬ 24 - t < 16 := by have := List.mem_range.mp first; omega
    rw [getLsbD_frame25, if_neg inCommand, Nat.sub_right_comm]
  · refine List.map_congr_left fun t _ => ?_
    have inData : 24 - (9 + t) < 16 := by omega
    rw [Function.comp_apply, getLsbD_frame25, if_pos inData, ← Nat.sub_sub]

/-- The turnaround drives nothing on `DATA` (R72). -/
theorem turnaroundEvents_dataDriven (read : Bool) : (turnaroundEvents read).filterMap Event.dataDriven = [] := by
  cases read <;> rfl

/-- A transaction drives on `DATA` the bits of its frame, whatever the samples answer. -/
theorem transferEvents_dataDriven (c : CmdWord) (d : DataWord) (answer : Nat → Level) :
    (transferEvents c d answer).filterMap Event.dataDriven =
      (List.range 25).map fun k => lvl ((frame25 c d).getLsbD (24 - k)) := by
  have pulse : pulseEvents.filterMap Event.dataDriven = [] := rfl
  have enabled : [Event.drive .enN .low].filterMap Event.dataDriven = [] := rfl
  have closing : [Event.delay, .drive .enN .high, .setDir .data .out].filterMap Event.dataDriven = [] := rfl
  have command : ∀ t, (c.setWidth 16).getLsbD (8 - t) = c.getLsbD (8 - t) := fun t => by
    rw [BitVec.getLsbD_setWidth, decide_eq_true (by omega), Bool.true_and]
  simp only [transferEvents, List.filterMap_append, pulse, enabled, closing, turnaroundEvents_dataDriven,
    wordEvents_dataDriven, List.nil_append, List.append_nil, Nat.reduceSub, command, frame25_levels]

/-- Settles O39: the events that a completed transaction appends drive its frame. -/
theorem wireOrderIsTheFrame : Obligations.WireOrderIsTheFrame := by
  unfold Obligations.WireOrderIsTheFrame
  exact fun read r a v s ready takes =>
    ⟨_, _, exec_xfer_completes read r a v ready takes, rfl, transferEvents_dataDriven _ _ _⟩

end Sys2Proof.Machine
end

section
/-!
PROOFS. The decode tree and the encoder (30_encoding.md R49 to R58): which operation each request selects, and that
decoding and encoding undo one another up to the bits that R55 drops.
-/

namespace Sys2Proof.Machine

/-! ### The decode tree, branch by branch (R57, R58) -/

theorem decode_transfer_of_length_ne {words : List HostWord} (h : words.length ≠ 2) :
    decode (.transfer words) = .nopT words := by
  show decodeWords words = _
  unfold decodeWords
  split
  · exact absurd rfl h
  · rfl

theorem decode_transferSegments_of_length_ne {segs : List (List HostWord)} (h : segs.length ≠ 1) :
    decode (.transferSegments segs) = .nopS segs := by
  show decodeSegments segs = _
  unfold decodeSegments
  split
  · exact absurd rfl h
  · rfl

/-- Two words select the transaction of the kind that bit 7 of the first names, with the other fields of its low nine
bits (R52, R55). -/
theorem decodeFrame_eq_xfer (w0 w1 : HostWord) :
    decodeFrame w0 w1 = xfer (w0.getLsbD 7) (reservedBit (cmdField w0)) (addrField (cmdField w0)) w1 := by
  rw [← directionBit_cmdField]
  rfl

theorem decode_pair (w0 w1 : HostWord) :
    decode (.transfer [w0, w1]) = xfer (w0.getLsbD 7) (reservedBit (cmdField w0)) (addrField (cmdField w0)) w1 :=
  decodeFrame_eq_xfer w0 w1

/-- The request of a transaction of either kind: its command word, zero-extended, and its data word. -/
theorem encode_xfer (read : Bool) (r : BitVec 1) (a : RegAddr) (v : DataWord) :
    encode (xfer read r a v) = some (.transfer [(commandWord r read a).setWidth 16, v]) := by
  cases read <;> rfl

/-- That request selects the transaction again. -/
theorem decodeFrame_commandWord (read : Bool) (r : BitVec 1) (a : RegAddr) (v : DataWord) :
    decodeFrame ((commandWord r read a).setWidth 16) v = xfer read r a v := by
  rw [decodeFrame_eq_xfer, ← directionBit_cmdField, cmdField_setWidth, directionBit_commandWord,
    reservedBit_commandWord, addrField_commandWord]

/-! ### Decode and encode -/

/-- Settles O3: a transaction by its three fields, a no-op by its count, and a TRANSFER or TRANSFER_SEGMENTS by the tree
itself. -/
theorem decodeOfEncode : Obligations.DecodeOfEncode := by
  unfold Obligations.DecodeOfEncode
  intro i q wf enc
  cases i with
  | xferW r a v => cases enc; exact decodeFrame_commandWord false r a v
  | xferR r a v => cases enc; exact decodeFrame_commandWord true r a v
  | init => cases enc; rfl
  | transfer words => cases enc; rfl
  | nopT words => cases enc; exact decode_transfer_of_length_ne (by simpa [Instr.wf] using wf)
  | transferSegments segs => cases enc; rfl
  | nopS segs => cases enc; exact decode_transferSegments_of_length_ne (by simpa [Instr.wf] using wf)
  | _ => cases enc

/-- Settles O4: the fields read from the nine bits of the first word make them up again. -/
theorem encodeOfDecodeDropsOnlyHighBits : Obligations.EncodeOfDecodeDropsOnlyHighBits := by
  unfold Obligations.EncodeOfDecodeDropsOnlyHighBits
  intro w0 w1
  rw [decode_pair, encode_xfer, ← directionBit_cmdField, commandWord_fields, cmdField]

/-- Settles O2, clause by clause of the tree. -/
theorem countsSelectOperation : Obligations.CountsSelectOperation := by
  unfold Obligations.CountsSelectOperation
  refine ⟨rfl, fun words => decode_transfer_of_length_ne,
    fun w0 w1 write => ⟨reservedBit (cmdField w0), addrField (cmdField w0), ?_⟩,
    fun w0 w1 read => ⟨reservedBit (cmdField w0), addrField (cmdField w0), ?_⟩,
    fun words => rfl, fun segs => decode_transferSegments_of_length_ne⟩
  · rw [decode_pair, write]
    rfl
  · rw [decode_pair, read]
    rfl

/-- Settles O6, by running the decoder on the five words. -/
theorem knownWordsDecode : Obligations.KnownWordsDecode := by
  unfold Obligations.KnownWordsDecode
  exact ⟨by decide, by decide, by decide, by decide, by decide⟩

/-! ### The direction bit (R52) -/

/-- The mask 0x080 cuts out bit 7 of a command word. -/
theorem and_directionMask (c : CmdWord) : c &&& 0x080#9 = if directionBit c then 0x080#9 else 0x000#9 :=
  BitVec.and_twoPow c 7

/-- No step of a transaction that goes on changes the direction register (R23). -/
theorem step_keeps_directionRead {s t : State} {job : Job} (before : s.mode = .busy job) (h : step s = .next t)
    (goesOn : t.mode = .busy job) : t.txn.directionRead = s.txn.directionRead := by
  have busy := State.isBusy_busy s job before
  rcases step_cases h with ⟨job', -, ticked⟩ | ⟨free, -, -⟩ | ⟨_, _, free, -, -⟩
  · rcases tick_next ticked with rfl | ⟨sl, -, ⟨-, rfl | rfl⟩ | ⟨-, rfl⟩⟩
    · cases goesOn
    · obtain ⟨-, -, keepRead, -⟩ := sl.onTxn_keeps (s.sampleLevel 0) s.txn
      simpa using keepRead
    · cases goesOn
    · cases goesOn
  · rw [busy] at free; cases free
  · rw [busy] at free; cases free

/-- Settles O1: bit 7 by the decode tree and by its mask, latched as the transaction is admitted, and kept. -/
theorem directionBitSelectsKind : Obligations.DirectionBitSelectsKind := by
  unfold Obligations.DirectionBitSelectsKind
  refine ⟨fun w0 w1 => ?_, fun w0 w1 s t begun => ?_, fun s t before h goesOn => step_keeps_directionRead before h goesOn⟩
  · have mask := and_directionMask (cmdField w0)
    rw [directionBit_cmdField, cmdField] at mask
    refine ⟨decode_pair w0 w1, ?_, ?_⟩ <;> rw [mask] <;> cases w0.getLsbD 7 <;> decide
  · have taken : (admitFrame (cmdField w0) w1 s).toOption = some t := (begins_decodeFrame w0 w1 s).symm.trans begun
    cases adm : admitFrame (cmdField w0) w1 s with
    | error r => rw [adm] at taken; cases taken
    | ok u =>
      rw [adm] at taken
      cases taken
      obtain ⟨-, rfl⟩ := admitFrame_ok adm
      exact ⟨congrArg Reg.holds (directionBit_cmdField w0), rfl, rfl⟩

end Sys2Proof.Machine
end

section
/-!
PROOFS. What the samples decide in a transaction and what they do not (41_transfer.md R72, R73), and the transaction
that two host words ask for (R68; 43_multi_segment.md R93).
-/

namespace Sys2Proof.Machine

/-! ### The result (R56, R73) -/

/-- Samples that answer the low `n` bits of a number, most significant first, spell that number. -/
theorem sampledWord_testBit (x n : Nat) : sampledWord n (fun k => lvl (x.testBit (n - 1 - k))) = x % 2 ^ n := by
  induction n with
  | zero => simp [sampledWord, Nat.mod_one]
  | succ n ih =>
    have later : (fun k => lvl (x.testBit (n + 1 - 1 - (1 + k)))) = fun k => lvl (x.testBit (n - 1 - k)) := by
      funext k
      rw [Nat.add_sub_cancel, ← Nat.sub_sub]
    have bit : ∀ b, bitOf (lvl b) = b := by decide
    rw [sampledWord_succ, later, ih, bit, Nat.add_sub_cancel, Nat.sub_zero, Nat.toNat_testBit, Nat.mod_pow_succ,
      Nat.add_comm, Nat.mul_comm]

/-- The number spelled depends on the first `n` samples only. -/
theorem sampledWord_congr {n : Nat} {answer answer' : Nat → Level} (h : ∀ k < n, answer k = answer' k) :
    sampledWord n answer = sampledWord n answer' := by
  unfold sampledWord
  refine congrArg List.sum (List.map_congr_left fun k mem => ?_)
  rw [h k (List.mem_range.mp mem)]

/-- Samples that echo a word spell it (R73, loopback). -/
theorem sampledWord_echo {n : Nat} (x : BitVec n) {answer : Nat → Level}
    (h : ∀ k < n, answer k = lvl (x.getLsbD (n - 1 - k))) : sampledWord n answer = x.toNat :=
  calc sampledWord n answer
    _ = sampledWord n fun k => lvl (x.toNat.testBit (n - 1 - k)) := sampledWord_congr h
    _ = x.toNat % 2 ^ n := sampledWord_testBit x.toNat n
    _ = x.toNat := Nat.mod_eq_of_lt x.isLt

/-- A result word of at most 16 samples is the number they spell, not cut. -/
theorem toNat_ofNat_sampledWord {n : Nat} (h : n ≤ 16) (answer : Nat → Level) :
    (BitVec.ofNat 16 (sampledWord n answer)).toNat = sampledWord n answer := by
  rw [BitVec.toNat_ofNat]
  exact Nat.mod_eq_of_lt (Nat.lt_of_lt_of_le (sampledWord_lt n answer) (Nat.pow_le_pow_right (by decide) h))

/-- Settles O34: the two words of the response, of 9 and of 16 samples; an echo of the frame is an echo of each word. -/
theorem resultIsTheSampledBits : Obligations.ResultIsTheSampledBits := by
  unfold Obligations.ResultIsTheSampledBits
  intro read r a v s ready takes
  refine ⟨_, exec_xfer_completes read r a v ready takes, ⟨_, _, rfl, ?_, ?_⟩, fun echo => ?_⟩
  · exact toNat_ofNat_sampledWord (n := 9) (by decide) s.sampleLevel
  · exact toNat_ofNat_sampledWord (n := 16) (by decide) fun k => s.sampleLevel (9 + k)
  · have command : sampledWord 9 s.sampleLevel = (commandWord r read a).toNat := by
      refine sampledWord_echo _ fun k hk => ?_
      have inCommand : ¬ 24 - k < 16 := by omega
      rw [echo k (by omega), getLsbD_frame25, if_neg inCommand, Nat.sub_right_comm]
    have data : (sampledWord 16 fun k => s.sampleLevel (9 + k)) = v.toNat := by
      refine sampledWord_echo _ fun k hk => ?_
      have inData : 24 - (9 + k) < 16 := by omega
      rw [echo (9 + k) (by omega), getLsbD_frame25, if_pos inData, ← Nat.sub_sub]
    simp only [State.afterTransfer, command, data, BitVec.ofNat_toNat, BitVec.setWidth_eq]

/-! ### The events (R52, R72) -/

/-- A word exchange but for the levels sampled. -/
theorem wordEvents_erased (value : BitVec 16) (n : Nat) (answer : Nat → Level) :
    (wordEvents value n answer).map Event.erased = wordEvents value n fun _ => .low := by
  have bit : ∀ b v, (bitEvents b v).map Event.erased = bitEvents b .low := fun _ _ => rfl
  simp only [wordEvents, List.map_flatMap, bit]

theorem turnaroundEvents_erased (read : Bool) : (turnaroundEvents read).map Event.erased = turnaroundEvents read := by
  cases read <;> rfl

/-- A transaction but for the levels sampled: the same events whatever the environment answers. -/
theorem transferEvents_erased (c : CmdWord) (d : DataWord) (answer : Nat → Level) :
    (transferEvents c d answer).map Event.erased = transferEvents c d fun _ => .low := by
  have pulse : pulseEvents.map Event.erased = pulseEvents := rfl
  simp only [transferEvents, List.map_append, pulse, wordEvents_erased, turnaroundEvents_erased]
  rfl

/-- Settles O36: both runs append the events of one command and data word. -/
theorem samplesSteerNothing : Obligations.SamplesSteerNothing := by
  unfold Obligations.SamplesSteerNothing
  intro read r a v s s' ready ready' takes takes'
  refine ⟨_, _, _, _, exec_xfer_completes read r a v ready takes, exec_xfer_completes read r a v ready' takes',
    rfl, rfl, ?_⟩
  rw [transferEvents_erased, transferEvents_erased]

/-! ### The transaction of two host words (R55, R68, R93) -/

/-- In every mode a TRANSFER of two words is the transaction they decode to. -/
theorem exec_transfer_pair (w0 w1 : HostWord) (s : State) :
    exec (.transfer [w0, w1]) s = exec (decodeFrame w0 w1) s := by
  rw [decodeFrame_eq_xfer, exec_xfer, ← directionBit_cmdField, commandWord_fields]
  rfl

/-- In every mode a TRANSFER_SEGMENTS of one segment is the TRANSFER of it. -/
theorem exec_transferSegments_single (words : List HostWord) (s : State) :
    exec (.transferSegments [words]) s = exec (.transfer words) s := rfl

/-- Settles O43: the transaction that the two words decode to runs to its end. -/
theorem transferOfTwoWordsCompletes : Obligations.TransferOfTwoWordsCompletes := by
  unfold Obligations.TransferOfTwoWordsCompletes
  intro w0 w1 s ready takes
  have completes : exec (.transfer [w0, w1]) s = .next (s.afterTransfer (cmdField w0) w1) := by
    rw [exec_transfer_pair, decodeFrame_eq_xfer, exec_xfer_completes _ _ _ _ ready takes, ← directionBit_cmdField,
      commandWord_fields]
  exact ⟨completes, (exec_transferSegments_single _ s).trans completes⟩

end Sys2Proof.Machine
end

section
/-!
PROOFS. INIT in progress (40_initialize.md R64, R67): the lines at each position of its list, and the window in which
the enable and reset lines are outputs without a level.
-/

namespace Sys2Proof.Machine

/-! ### A request in progress, part of the way (R24) -/

/-- While entries are left after them, the steps of a request in progress perform the entries `front`, one a step. -/
theorem State.StandsBefore.run_afterSlots {job : Job} {front later : List Slot} {s : State}
    (h : s.StandsBefore job (front ++ later)) (more : later ≠ []) (takes : s.platformTakes front.length) :
    Host.Core.run Sys2Proof.core front.length s = .next (afterSlots front s) := by
  induction front generalizing s with
  | nil =>
    have same : s = afterSlots [] s := LeafResult.done.inj (runSlots_completes takes)
    exact congrArg Host.Outcome.next same
  | cons sl rest ih =>
    have first : step s = .next (sl.commit s.leafTried) := by
      rw [h.step_eq, if_neg (by simp [more]), perform_completes (takes 0 (by simp)), LeafResult.outcome]
    rw [List.length_cons, run_succ _ first, ih h.commit (State.platformTakes_tail sl takes), afterSlots_cons]

/-! ### INIT, position by position (R64, R66) -/

/-- The step that takes an INIT in any mode but `Busy` stands before its ten primitives, the lines untouched. -/
theorem step_accepts_init {s : State} {timing : Timing} {rest : List HostCall} (free : s.isBusy = false)
    (call : s.inbox = ⟨.init, timing⟩ :: rest) (calls : waits rest = true) :
    ∃ t : State, step s = .next t ∧ t.StandsBefore .init initSlots ∧ t.lines = s.lines ∧
      ∀ k, t.leafAnswer k = s.leafAnswer k := by
  have begun : begins .init { s with inbox := rest } = some _ :=
    congrArg Except.toOption (admitInit_free (s := { s with inbox := rest }) free)
  exact ⟨_, step_accepts free call begun, ⟨rfl, calls, fun transfer => Job.noConfusion transfer, 0, rfl, rfl⟩, rfl,
    fun _ => rfl⟩

/-- With that step and `k` more, short of the last, the first `k` primitives of INIT have acted on the lines. -/
theorem run_init_lines {s : State} {timing : Timing} {rest : List HostCall} {k : Nat} (free : s.isBusy = false)
    (call : s.inbox = ⟨.init, timing⟩ :: rest) (calls : waits rest = true) (short : k < initSlots.length)
    (takes : s.platformTakes k) :
    ∃ t : State, Host.Core.run Sys2Proof.core (k + 1) s = .next t ∧
      t.lines = linesAfter (initSlots.take k) s.lines := by
  obtain ⟨u, accept, stands, lines, answers⟩ := step_accepts_init free call calls
  have count : (initSlots.take k).length = k := List.length_take_of_le (Nat.le_of_lt short)
  rw [← List.take_append_drop k initSlots] at stands
  have performed := stands.run_afterSlots (by simpa using short) fun j hj => by
    rw [answers]
    exact takes j (by rwa [count] at hj)
  rw [count] at performed
  exact ⟨_, by rw [run_succ k accept, performed], by rw [← lines]; rfl⟩

/-- Settles O30: seven primitives make the enable line an output, the eighth the reset line; the ninth is the first to
drive either of them. -/
theorem initLevelsUndefinedInWindow : Obligations.InitLevelsUndefinedInWindow := by
  unfold Obligations.InitLevelsUndefinedInWindow
  intro s mode powerOn call takes
  have reached : ∀ k ≤ 9, ∃ t : State, Host.Core.run Sys2Proof.core (k + 1) s = .next t ∧
      t.lines = linesAfter (initSlots.take k) .powerOn := fun k le =>
    powerOn ▸ run_init_lines (by simp [State.isBusy, mode]) call rfl (Nat.lt_succ_of_le le) fun j hj =>
      takes j (Nat.lt_of_lt_of_le hj le)
  obtain ⟨t8, run8, lines8⟩ := reached 7 (by decide)
  obtain ⟨t9, run9, lines9⟩ := reached 8 (by decide)
  obtain ⟨t10, run10, lines10⟩ := reached 9 (by decide)
  refine ⟨t8, t9, t10, run8, run9, run10, ?_⟩
  rw [lines8, lines9, lines10]
  exact ⟨⟨rfl, rfl⟩, ⟨rfl, rfl⟩, ⟨rfl, rfl⟩, ⟨rfl, rfl, rfl⟩⟩

end Sys2Proof.Machine
end

section
/-!
PROOFS. The outcome of a transaction of each kind and the guards of TRANSFER (41_transfer.md R68 to R73).
-/

namespace Sys2Proof.Machine

/-! ### The transactions of either kind (R71 to R73) -/

/-- Settles O31: the transaction of kind write. -/
theorem xferWriteRunsToReady : Obligations.XferWriteRunsToReady := by
  unfold Obligations.XferWriteRunsToReady
  exact fun r a v s ready takes => exec_xfer_completes false r a v ready takes

/-- Settles O32: the transaction of kind read. -/
theorem xferReadRunsToReady : Obligations.XferReadRunsToReady := by
  unfold Obligations.XferReadRunsToReady
  exact fun r a v s ready takes => exec_xfer_completes true r a v ready takes

/-- Settles O35: each of the two words is spelled by samples that agree. -/
theorem resultDependsOnSamplesOnly : Obligations.ResultDependsOnSamplesOnly := by
  unfold Obligations.ResultDependsOnSamplesOnly
  intro read read' r r' a a' v v' s s' ready ready' takes takes' agree
  have command : sampledWord 9 s.sampleLevel = sampledWord 9 s'.sampleLevel :=
    sampledWord_congr fun k hk => agree k (by omega)
  have data : (sampledWord 16 fun k => s.sampleLevel (9 + k)) = sampledWord 16 fun k => s'.sampleLevel (9 + k) :=
    sampledWord_congr fun k hk => agree (9 + k) (by omega)
  refine ⟨_, _, _, exec_xfer_completes read r a v ready takes, exec_xfer_completes read' r' a' v' ready' takes', rfl,
    ?_⟩
  rw [command, data]
  rfl

/-! ### The guards of TRANSFER (R68, R70) -/

/-- In every mode a TRANSFER of other than two words is NOP.T. -/
theorem exec_transfer_of_length_ne {words : List HostWord} (h : words.length ≠ 2) (s : State) :
    exec (.transfer words) s = exec (.nopT words) s := by
  show transferWords words s = ignoreCall (.ignored words) s
  unfold transferWords
  split
  · exact absurd rfl h
  · rfl

/-- Outside mode `Busy` NOP.T answers the caller's words. -/
theorem exec_nopT_free {s : State} (free : s.isBusy = false) (words : List HostWord) :
    exec (.nopT words) s = .next { s with responses := s.responses ++ [.ignored words] } := by
  show ignoreCall (.ignored words) s = _
  simp [ignoreCall, free]

/-- Settles O41: the shape guard, then NOP.T in and outside mode `Busy`. -/
theorem misshapenTransferIsIgnored : Obligations.MisshapenTransferIsIgnored := by
  unfold Obligations.MisshapenTransferIsIgnored
  intro words s shape
  refine ⟨exec_transfer_of_length_ne shape s, fun free => exec_nopT_free free words, fun busy => ?_⟩
  obtain ⟨job, mode⟩ := (State.isBusy_iff s).mp busy
  rw [← decode_transfer_of_length_ne shape]
  exact exec_decode_busy _ mode

/-- In every mode a TRANSFER, of any shape, is what its request decodes to. -/
theorem exec_transfer_eq_exec_decode (words : List HostWord) (s : State) :
    exec (.transfer words) s = exec (decode (.transfer words)) s := by
  by_cases pair : words.length = 2
  · obtain ⟨w0, w1, rfl⟩ := List.length_eq_two.mp pair
    exact exec_transfer_pair w0 w1 s
  · rw [decode_transfer_of_length_ne pair, exec_transfer_of_length_ne pair]

/-- Where its admission is refused, so is a TRANSFER of two words. -/
theorem exec_transfer_pair_refused {w0 w1 : HostWord} {s : State} {r : Refusal}
    (h : admitFrame (cmdField w0) w1 s = .error r) : exec (.transfer [w0, w1]) s = .refused r := by
  show runRequest .transfer (admitFrame (cmdField w0) w1 s) = _
  rw [h, runRequest]

/-- Settles O44: mode `Busy` and the word count first, then the modes in which two words are refused, then `Ready`. -/
theorem transferGuardsInOrder : Obligations.TransferGuardsInOrder := by
  unfold Obligations.TransferGuardsInOrder
  intro words s
  refine ⟨fun busy => ?_, fun _ shape => exec_transfer_of_length_ne shape s, ?_, ?_, ?_⟩
  · obtain ⟨job, mode⟩ := (State.isBusy_iff s).mp busy
    rw [exec_transfer_eq_exec_decode]
    exact exec_decode_busy _ mode
  · rintro w0 w1 rfl uninit
    exact exec_transfer_pair_refused (by simp [admitFrame, uninit])
  · rintro w0 w1 rfl faulted
    exact exec_transfer_pair_refused (by simp [admitFrame, faulted])
  · rintro w0 w1 rfl ready
    exact ⟨exec_transfer_eq_exec_decode _ s, fun takes => (transferOfTwoWordsCompletes w0 w1 s ready takes).1⟩

end Sys2Proof.Machine
end

section
/-!
PROOFS. The list of a transaction, entry by entry (41_transfer.md R76): each of its parts stands where the part before
it ends.
-/

namespace Sys2Proof.Machine

/-- Where a list goes on with `a`, it goes on after it with the rest. -/
theorem drop_add_of_drop_eq_append {α : Type} {l a rest : List α} {k n : Nat} (h : l.drop k = a ++ rest)
    (len : a.length = n) : l.drop (k + n) = rest := by
  rw [← List.drop_drop, h, List.drop_left' len]

theorem getElem?_of_drop_eq {α : Type} {l rest : List α} {k : Nat} (h : l.drop k = rest) (i : Nat) :
    l[k + i]? = rest[i]? := by
  rw [← h, List.getElem?_drop]

/-- Opening the accumulator of a word changes no primitive. -/
theorem openWord_leaves (x : Option Rx) (slots : List Slot) :
    (openWord x slots).map Slot.leaf = slots.map Slot.leaf := by
  unfold openWord; split <;> rfl

/-- A clock pulse in a list stands as `P(k)` has it. -/
theorem pulseAt_of_drop {prims rest : List Prim} {k : Nat}
    (h : prims.drop k = clockPulseSlots.map Slot.leaf ++ rest) : pulseAt prims k :=
  have entry := getElem?_of_drop_eq h
  ⟨entry 0, entry 1, entry 2, entry 3⟩

/-- A bit exchange in a list stands as `X(k, b)` has it. -/
theorem bitAt_of_drop {prims rest : List Prim} {k : Nat} {x : Option Rx} {b : Bool}
    (h : prims.drop k = (exchangeBitSlots x b).map Slot.leaf ++ rest) : bitAt prims k b := by
  have entry := getElem?_of_drop_eq h
  cases x <;> exact ⟨entry 0, ⟨entry 1, entry 2, entry 3, entry 4⟩, entry 5⟩

/-- A word exchange in a list is its bit exchanges, six entries apart. -/
theorem bitAt_of_drop_word {prims rest : List Prim} {k n : Nat} {x : Option Rx} {value : BitVec 16}
    (h : prims.drop k = (exchangeWordSlots x value n).map Slot.leaf ++ rest) {t : Nat} (ht : t < n) :
    bitAt prims (k + 6 * t) (value.getLsbD (n - 1 - t)) := by
  obtain ⟨m, rfl⟩ : ∃ m, n = m + 1 + t := ⟨n - 1 - t, by omega⟩
  have bits : prims.drop (k + 6 * t) = (exchangeBitsSlots x value (m + 1)).map Slot.leaf ++ rest := by
    rw [← List.drop_drop, h, exchangeWordSlots, openWord_leaves, List.drop_append_of_le_length (by simp),
      ← List.map_drop, exchangeBitsSlots_drop]
  rw [exchangeBitsSlots, List.map_append, List.append_assoc] at bits
  rw [show m + 1 + t - 1 - t = m by omega]
  exact bitAt_of_drop bits

/-- The turnaround of a read stands as the table has it: DIR_IN, then a pulse. -/
theorem turnaroundAt_of_drop {prims rest : List Prim} {k : Nat}
    (h : prims.drop k = (turnaroundSlots true).map Slot.leaf ++ rest) :
    prims[k]? = some (.setDir .data .inp) ∧ pulseAt prims (k + 1) :=
  ⟨getElem?_of_drop_eq h 0, pulseAt_of_drop (drop_add_of_drop_eq_append (a := dirInSlots.map Slot.leaf) h rfl)⟩

/-- Settles O38: the parts of the list in order, each where the part before it ends. -/
theorem flatListOfTransaction : Obligations.FlatListOfTransaction := by
  unfold Obligations.FlatListOfTransaction
  intro c d read
  have length : ((transferSlots c d read).map Slot.leaf).length = transferLength read := by simp
  have turned : 63 + (turnaroundSlots read).length = dataStart read := by cases read <;> rfl
  have start : ((transferSlots c d read).map Slot.leaf).drop 0 = _ :=
    congrArg (List.map Slot.leaf) (transferSlots_eq c d read)
  generalize (transferSlots c d read).map Slot.leaf = prims at length start ⊢
  simp only [List.map_append, List.append_assoc] at start
  have second := drop_add_of_drop_eq_append (n := 4) start rfl
  have select := drop_add_of_drop_eq_append (n := 4) second rfl
  have command := drop_add_of_drop_eq_append (n := 1) select rfl
  have turn := drop_add_of_drop_eq_append (n := 54) command (by simp)
  have data : prims.drop (63 + (turnaroundSlots read).length) = _ := drop_add_of_drop_eq_append turn (by simp)
  rw [turned] at data
  have settle := drop_add_of_drop_eq_append (n := 96) data (by simp)
  have unselect := drop_add_of_drop_eq_append (n := 1) settle rfl
  have dirOut := drop_add_of_drop_eq_append (n := 1) unselect rfl
  have trailing := drop_add_of_drop_eq_append (n := 1) dirOut rfl
  have commandBits : ∀ t < 9, bitAt prims (9 + 6 * t) (c.getLsbD (8 - t)) := fun t ht => by
    have bit := bitAt_of_drop_word command ht
    rwa [BitVec.getLsbD_setWidth, decide_eq_true (by omega), Bool.true_and] at bit
  have dataBits : ∀ k < 16, bitAt prims (dataStart read + 6 * k) (d.getLsbD (15 - k)) :=
    fun k hk => bitAt_of_drop_word data hk
  have atSettle := getElem?_of_drop_eq settle 0
  have atUnselect := getElem?_of_drop_eq unselect 0
  have atDirOut := getElem?_of_drop_eq dirOut 0
  have lastPulse := pulseAt_of_drop (trailing.trans (List.append_nil _).symm)
  refine ⟨length, pulseAt_of_drop start, pulseAt_of_drop second, getElem?_of_drop_eq select 0, commandBits, ?_,
    dataBits, ?_⟩
  · rintro rfl
    exact turnaroundAt_of_drop turn
  · cases read <;> exact ⟨atSettle, atUnselect, atDirOut, lastPulse⟩

end Sys2Proof.Machine
end

section
/-!
PROOFS. The events of a transaction: how many there are of each sort, and where the direction of `DATA` changes
(41_transfer.md R75, R77).
-/

namespace Sys2Proof.Machine

/-! ### The counts of events (R75) -/

/-- The events of a transaction without those of its two word exchanges. -/
def eventsAroundWords (read : Bool) : List Event :=
  pulseEvents ++ pulseEvents ++ [.drive .enN .low] ++ turnaroundEvents read
    ++ [.delay, .drive .enN .high, .setDir .data .out] ++ pulseEvents

/-- Events of which each bit exchange has `m`, a word exchange has `m` for each of its bits. -/
theorem wordEvents_countP {p : Event → Bool} {m : Nat} (bit : ∀ b v, (bitEvents b v).countP p = m)
    (value : BitVec 16) (n : Nat) (answer : Nat → Level) : (wordEvents value n answer).countP p = n * m := by
  rw [wordEvents, List.countP_flatMap]
  simp [Function.comp_def, bit]

/-- Events of which each bit exchange has `m`, a transaction has `m` for each of its 25 bits, and those around them. -/
theorem transferEvents_countP {p : Event → Bool} {m : Nat} (bit : ∀ b v, (bitEvents b v).countP p = m)
    (c : CmdWord) (d : DataWord) (answer : Nat → Level) :
    (transferEvents c d answer).countP p = 25 * m + (eventsAroundWords (c.getLsbD 7)).countP p := by
  simp only [transferEvents, eventsAroundWords, List.countP_append, wordEvents_countP bit]
  omega

/-- The two levels of one drive or sample, counted together. -/
theorem count_add_count {a b : Event} (h : a ≠ b) (events : List Event) :
    events.count a + events.count b = events.countP fun e => e == a || e == b := by
  induction events with
  | nil => rfl
  | cons e rest ih =>
    have one : ((if e == a then 1 else 0) + if e == b then 1 else 0) = if e == a || e == b then 1 else 0 := by
      by_cases isA : e = a
      · simp [isA, h]
      · simp [isA]
    rw [List.count_cons, List.count_cons, List.countP_cons, ← ih, ← one, Nat.add_add_add_comm]

/-- The events under select, from the first bit to the settle delay (R76). -/
theorem eventsToUnselect_drop_nine (c : CmdWord) (d : DataWord) (answer : Nat → Level) :
    (eventsToUnselect c d answer).drop 9 =
      wordEvents (c.setWidth 16) 9 answer ++ (turnaroundEvents (c.getLsbD 7)
        ++ wordEvents d 16 (fun k => answer (9 + k)) ++ [.delay]) := by
  simp [eventsToUnselect, pulseEvents]

/-- Those of them after the command word: the data phase, on a read with the turnaround. -/
theorem eventsToUnselect_drop_command (c : CmdWord) (d : DataWord) (answer : Nat → Level) :
    (eventsToUnselect c d answer).drop 63 =
      turnaroundEvents (c.getLsbD 7) ++ wordEvents d 16 (fun k => answer (9 + k)) ++ [.delay] := by
  have command : (wordEvents (c.setWidth 16) 9 answer).length = 54 := wordEvents_length _ _ _
  exact drop_add_of_drop_eq_append (eventsToUnselect_drop_nine c d answer) command

/-- After UNSELECT `DATA` becomes an output, and one pulse trails (R76). -/
theorem transferEvents_drop_afterUnselect (c : CmdWord) (d : DataWord) (answer : Nat → Level) :
    (transferEvents c d answer).drop (if c.getLsbD 7 then 166 else 161) = .setDir .data .out :: pulseEvents := by
  have position : (if c.getLsbD 7 then 166 else 161) = (eventsToUnselect c d answer).length + 1 := by
    rw [eventsToUnselect_length]; split <;> rfl
  rw [transferEvents_eq, position, List.drop_length_add_append]
  rfl

theorem transferEvents_length (c : CmdWord) (d : DataWord) (answer : Nat → Level) :
    (transferEvents c d answer).length = if c.getLsbD 7 then 171 else 166 := by
  rw [← transferSlots_events, slotEvents_length, transferSlots_length]
  rfl

/-- One clock pulse for each bit of a word (R83). -/
theorem wordEvents_count_rising (value : BitVec 16) (n : Nat) (answer : Nat → Level) :
    (wordEvents value n answer).count (.drive .clk .high) = n :=
  (wordEvents_countP (m := 1) (fun _ _ => rfl) value n answer).trans (Nat.mul_one n)

/-- Whether an event is on the reset line. -/
def Event.onReset : Event → Bool
  | .cfg l => l == .rstN
  | .setDir l _ => l == .rstN
  | .drive l _ => l == .rstN
  | .sample l _ => l == .rstN
  | .delay => false

/-- No event of a transaction is on the reset line (R119). -/
theorem not_mem_transferEvents_of_onReset {e : Event} (h : e.onReset = true) (c : CmdWord) (d : DataWord)
    (answer : Nat → Level) : e ∉ transferEvents c d answer := by
  have never : (transferEvents c d answer).countP Event.onReset = 0 := by
    rw [transferEvents_countP (m := 0) fun _ _ => rfl]
    cases c.getLsbD 7 <;> rfl
  exact fun mem => List.countP_eq_zero.mp never e mem h

/-- Settles O37: 25 times the count in a bit exchange, and what stands around the words. -/
theorem eventCountsOfTransaction : Obligations.EventCountsOfTransaction := by
  unfold Obligations.EventCountsOfTransaction
  intro read r a v s ready takes
  refine ⟨_, _, exec_xfer_completes read r a v ready takes, rfl, ?_⟩
  have kind : (commandWord r read a).getLsbD 7 = read := directionBit_commandWord r read a
  generalize commandWord r read a = c at kind ⊢
  subst kind
  have untilUnselect : (transferEvents c v s.sampleLevel).take (if c.getLsbD 7 then 165 else 160) =
      eventsToUnselect c v s.sampleLevel := by
    rw [transferEvents_eq, List.take_left' (eventsToUnselect_length c v s.sampleLevel)]
  rw [untilUnselect, eventsToUnselect_drop_nine, eventsToUnselect_drop_command, transferEvents_drop_afterUnselect]
  simp only [List.count_append, wordEvents_count_rising]
  refine ⟨transferEvents_length _ _ _, ?delays, ?drives, ?pulses, ?underSelect, ?dataPhase, rfl, rfl, ?dataDrives,
    ?enableDrives, ?samples, ?dirIn, ?dirOut, ?reset⟩
  case delays => exact (transferEvents_countP (m := 2) (fun _ _ => rfl) c v _).trans (by cases c.getLsbD 7 <;> rfl)
  case drives => exact (transferEvents_countP (m := 3) (fun _ _ => rfl) c v _).trans (by cases c.getLsbD 7 <;> rfl)
  case pulses => exact (transferEvents_countP (m := 1) (fun _ _ => rfl) c v _).trans (by cases c.getLsbD 7 <;> rfl)
  case underSelect => cases c.getLsbD 7 <;> rfl
  case dataPhase => cases c.getLsbD 7 <;> rfl
  case dataDrives =>
    rw [count_add_count (by decide)]
    exact (transferEvents_countP (m := 1) (fun b _ => by cases b <;> rfl) c v _).trans (by cases c.getLsbD 7 <;> rfl)
  case enableDrives =>
    rw [count_add_count (by decide)]
    exact (transferEvents_countP (m := 0) (fun _ _ => rfl) c v _).trans (by cases c.getLsbD 7 <;> rfl)
  case samples =>
    rw [count_add_count (by decide)]
    exact (transferEvents_countP (m := 1) (fun _ v => by cases v <;> rfl) c v _).trans (by cases c.getLsbD 7 <;> rfl)
  case dirIn => exact (transferEvents_countP (m := 0) (fun _ _ => rfl) c v _).trans (by cases c.getLsbD 7 <;> rfl)
  case dirOut => exact (transferEvents_countP (m := 0) (fun _ _ => rfl) c v _).trans (by cases c.getLsbD 7 <;> rfl)
  case reset =>
    rintro l rfl v d
    exact ⟨not_mem_transferEvents_of_onReset rfl _ _ _, not_mem_transferEvents_of_onReset rfl _ _ _,
      not_mem_transferEvents_of_onReset rfl _ _ _, not_mem_transferEvents_of_onReset rfl _ _ _⟩

/-! ### The changes of direction (R77) -/

/-- A word exchange changes no direction. -/
theorem setDir_not_mem_wordEvents (l : Line) (dir : Dir) (value : BitVec 16) (n : Nat) (answer : Nat → Level) :
    .setDir l dir ∉ wordEvents value n answer := by
  simp [wordEvents, bitEvents, pulseEvents]

/-- It samples once for each bit (R83). -/
theorem wordEvents_countP_isSample (value : BitVec 16) (n : Nat) (answer : Nat → Level) :
    (wordEvents value n answer).countP Event.isSample = n :=
  (wordEvents_countP (m := 1) (fun _ _ => rfl) value n answer).trans (Nat.mul_one n)

/-- The events of a transaction before its turnaround (R69 steps 2 to 4). -/
def eventsToTurnaround (c : CmdWord) (answer : Nat → Level) : List Event :=
  pulseEvents ++ pulseEvents ++ [.drive .enN .low] ++ wordEvents (c.setWidth 16) 9 answer

/-- The events of a transaction from its data word on. -/
def eventsFromData (d : DataWord) (answer : Nat → Level) : List Event :=
  wordEvents d 16 (fun k => answer (9 + k)) ++ [.delay, .drive .enN .high, .setDir .data .out] ++ pulseEvents

theorem transferEvents_eq_turnaround (c : CmdWord) (d : DataWord) (answer : Nat → Level) :
    transferEvents c d answer =
      eventsToTurnaround c answer ++ turnaroundEvents (c.getLsbD 7) ++ eventsFromData d answer := by
  simp [transferEvents, eventsToTurnaround, eventsFromData]

/-- The data word begins with a drive of its first bit (R83). -/
theorem eventsFromData_head? (d : DataWord) (answer : Nat → Level) :
    (eventsFromData d answer).head? = some (.drive .data (lvl (d.getLsbD 15))) := rfl

/-- Neither before the turnaround nor from the data word on does `DATA` become an input. -/
theorem dirIn_not_mem_aroundTurn (c : CmdWord) (d : DataWord) (answer : Nat → Level) :
    .setDir .data .inp ∉ eventsToTurnaround c answer ∧ .setDir .data .inp ∉ eventsFromData d answer := by
  simp [eventsToTurnaround, eventsFromData, setDir_not_mem_wordEvents, pulseEvents]

/-- Before UNSELECT `DATA` does not become an output. -/
theorem dirOut_not_mem_eventsToUnselect (c : CmdWord) (d : DataWord) (answer : Nat → Level) :
    .setDir .data .out ∉ eventsToUnselect c d answer := by
  cases h : c.getLsbD 7 <;> simp [eventsToUnselect, setDir_not_mem_wordEvents, pulseEvents, turnaroundEvents, h]

/-- All 25 samples come before UNSELECT. -/
theorem eventsToUnselect_countP_isSample (c : CmdWord) (d : DataWord) (answer : Nat → Level) :
    (eventsToUnselect c d answer).countP Event.isSample = 25 := by
  simp only [eventsToUnselect, List.countP_append, wordEvents_countP_isSample]
  cases c.getLsbD 7 <;> rfl

/-- Settles O40: the transaction cut at its turnaround, and at DIR_OUT right after UNSELECT. -/
theorem directionChangesOfTransaction : Obligations.DirectionChangesOfTransaction := by
  unfold Obligations.DirectionChangesOfTransaction
  intro read r a v s ready takes
  refine ⟨_, _, exec_xfer_completes read r a v ready takes, rfl, ?_⟩
  have kind : (commandWord r read a).getLsbD 7 = read := directionBit_commandWord r read a
  generalize commandWord r read a = c at kind ⊢
  obtain ⟨notBefore, notAfter⟩ := dirIn_not_mem_aroundTurn c v s.sampleLevel
  refine ⟨?write, ?read, ?dirOut⟩
  case write =>
    rintro rfl
    rw [transferEvents_eq_turnaround, kind]
    simp [turnaroundEvents, notBefore, notAfter]
  case read =>
    rintro rfl
    refine ⟨eventsToTurnaround c s.sampleLevel, pulseEvents, eventsFromData v s.sampleLevel, ?_, ?_, ?_, rfl,
      ⟨_, eventsFromData_head? v _⟩, ?_⟩
    · rw [transferEvents_eq_turnaround, kind]
      simp [turnaroundEvents]
    · simp [notBefore, notAfter, pulseEvents]
    · simp only [eventsToTurnaround, List.countP_append, wordEvents_countP_isSample]
      rfl
    · simp only [eventsFromData, List.countP_append, wordEvents_countP_isSample]
      rfl
  case dirOut =>
    refine ⟨eventsToUnselect c v s.sampleLevel ++ [.drive .enN .high], pulseEvents, ?_, ?_, ?_, ?_, rfl⟩
    · simp [transferEvents_eq]
    · rw [List.countP_append, eventsToUnselect_countP_isSample]
      rfl
    · simp [dirOut_not_mem_eventsToUnselect, pulseEvents]
    · simp [pulseEvents]

end Sys2Proof.Machine
end

section
/-!
PROOFS. The sub-protocols and the rest of the micro-operations (42_exchange.md R83 to R87, R90): each carried out to its
end, and where SELECT, UNSELECT and DIR_IN stand in a transaction; and the end of every accepted request (R91, R140).
-/

namespace Sys2Proof.Machine

/-! ### DIR_IN (R87) -/

/-- The turnaround of a transaction is at position 63 (R76). -/
theorem eventsToTurnaround_length (c : CmdWord) (answer : Nat → Level) : (eventsToTurnaround c answer).length = 63 := by
  simp [eventsToTurnaround, pulseEvents, wordEvents_length]

/-- The last event before the turnaround is the ninth command sample. -/
theorem eventsToTurnaround_drop (c : CmdWord) (answer : Nat → Level) :
    (eventsToTurnaround c answer).drop 62 = [.sample .data (answer 8)] := rfl

/-- The last level driven on `DATA` before the turnaround is bit 0 of the command word. -/
theorem eventsToTurnaround_dataDriven_getLast? (c : CmdWord) (answer : Nat → Level) :
    ((eventsToTurnaround c answer).filterMap Event.dataDriven).getLast? = some (lvl (c.getLsbD 0)) := by
  have last := wordEvents_dataDriven_getLast? (c.setWidth 16) (n := 9) (by decide) answer
  rw [BitVec.getLsbD_setWidth, decide_eq_true (by decide), Bool.true_and] at last
  rw [eventsToTurnaround, List.filterMap_append, List.getLast?_append, last]
  rfl

/-- Settles O24: DIR_IN's list is one change of direction; of a transaction only the turnaround holds it. -/
theorem dirInTurnsDataToInput : Obligations.DirInTurnsDataToInput := by
  unfold Obligations.DirInTurnsDataToInput
  refine ⟨fun s takes => outcome_runSlots (slots := dirInSlots) takes, fun c d answer => ?_⟩
  have length := eventsToTurnaround_length c answer
  obtain ⟨notBefore, notAfter⟩ := dirIn_not_mem_aroundTurn c d answer
  rw [transferEvents_eq_turnaround]
  refine ⟨fun read => ?_, fun write => ?_⟩
  · rw [read, List.append_assoc]
    refine ⟨?_, ?_, ?_⟩
    · rw [List.drop_append_of_le_length (by omega), eventsToTurnaround_drop]
      rfl
    · rw [List.take_left' length, eventsToTurnaround_dataDriven_getLast?]
    · rw [List.count_append, List.count_append, List.count_eq_zero_of_not_mem notBefore,
        List.count_eq_zero_of_not_mem notAfter]
      rfl
  · rw [write]
    simp [turnaroundEvents, notBefore, notAfter]

/-! ### EXCHANGE_WORD and EXCHANGE_BIT (R83, R84, R90) -/

/-- EXCHANGE_WORD of at least one bit, performed to its end, all of its effect but what it does to the accumulator. -/
theorem exec_exchangeWord_completes (value : BitVec 16) {n : Nat} (pos : 0 < n) {s : State}
    (takes : s.platformTakes (6 * n)) :
    exec (.exchangeWord value n) s = .next { s.used (6 * n) n with
      lines := { s.lines with
        lat := { s.lines.lat with clk := .holds .low, data := .holds (lvl (value.getLsbD 0)) } }
      txn := (slotTxn (exchangeWordSlots (wordRx n) value n) s.sampleLevel s.txn).advance (6 * n)
      hist := s.hist ++ wordEvents value n s.sampleLevel } := by
  have performs : s.platformTakes (exchangeWordSlots (wordRx n) value n).length := by
    rwa [exchangeWordSlots_length]
  show (runSlots (exchangeWordSlots (wordRx n) value n) s).outcome = _
  rw [outcome_runSlots performs, afterSlots, exchangeWordSlots_length, exchangeWordSlots_samples,
    exchangeWordSlots_lines _ _ pos, exchangeWordSlots_events]

/-- Settles O27: the accumulator of 9 bits is `rx_cmd`, that of 16 is `rx_data`. -/
theorem exchangeWordShiftsInSamples : Obligations.ExchangeWordShiftsInSamples := by
  unfold Obligations.ExchangeWordShiftsInSamples
  refine fun value s => ⟨fun takes => ?_, fun takes => ?_⟩
  · rw [exec_exchangeWord_completes value (n := 9) (by decide) takes, wordRx_nine,
      exchangeWordSlots_txn_cmd value (by decide)]
    rfl
  · rw [exec_exchangeWord_completes value (n := 16) (by decide) takes, wordRx_sixteen,
      exchangeWordSlots_txn_data value (by decide)]
    rfl

/-- Settles O28: samples that echo a word spell it, and the accumulator holds what the samples spell. -/
theorem loopbackReturnsTheWord : Obligations.LoopbackReturnsTheWord := by
  unfold Obligations.LoopbackReturnsTheWord
  intro value s
  obtain ⟨command, data⟩ := exchangeWordShiftsInSamples value s
  refine ⟨fun takes echo => ⟨_, command takes, ?_⟩, fun takes echo => ⟨_, data takes, ?_⟩⟩
  · have word : sampledWord 9 s.sampleLevel = (value.setWidth 9).toNat := by
      refine sampledWord_echo _ fun k hk => ?_
      rw [echo k hk, BitVec.getLsbD_setWidth, decide_eq_true (by omega), Bool.true_and]
    simp only [word, BitVec.ofNat_toNat, BitVec.setWidth_eq]
  · have word : sampledWord 16 s.sampleLevel = value.toNat := sampledWord_echo value echo
    simp only [word, BitVec.ofNat_toNat, BitVec.setWidth_eq]

/-- Settles O26: EXCHANGE_BIT's list is the drive, the clock pulse and the sample. -/
theorem exchangeBitDrivesThenSamples : Obligations.ExchangeBitDrivesThenSamples := by
  unfold Obligations.ExchangeBitDrivesThenSamples
  intro b s takes
  rw [← lvl_eq_ite b]
  exact outcome_runSlots (slots := exchangeBitSlots none b) takes

/-! ### SELECT and UNSELECT (R85, R86) -/

/-- The enable line at its active level, then the first events of the command word (R76). -/
theorem eventsToTurnaround_drop_eight (c : CmdWord) (answer : Nat → Level) :
    (eventsToTurnaround c answer).drop 8 = .drive .enN .low :: wordEvents (c.setWidth 16) 9 answer := rfl

/-- Settles O22: SELECT's list is one drive; in a transaction the command word follows it. -/
theorem selectDrivesEnableLow : Obligations.SelectDrivesEnableLow := by
  unfold Obligations.SelectDrivesEnableLow
  refine ⟨fun s takes => ⟨_, outcome_runSlots (slots := selectSlots) takes, rfl, rfl⟩, fun c d answer => ?_⟩
  have length := eventsToTurnaround_length c answer
  have firstBit : (c.setWidth 16).getLsbD 8 = c.getLsbD 8 := by simp
  rw [transferEvents_eq_turnaround, List.append_assoc, List.drop_append_of_le_length (by omega),
    eventsToTurnaround_drop_eight, ← firstBit]
  rfl

/-- Settles O23: UNSELECT's list is one drive; a transaction's events before it end with the settle delay. -/
theorem unselectDrivesEnableHigh : Obligations.UnselectDrivesEnableHigh := by
  unfold Obligations.UnselectDrivesEnableHigh
  refine ⟨fun s takes => ⟨_, outcome_runSlots (slots := unselectSlots) takes, rfl, rfl⟩,
    fun c d answer => ⟨?_, ?_⟩, rfl⟩
  · rw [transferEvents_eq, ← eventsToUnselect_length c d answer, List.getElem?_append_right (Nat.le_refl _),
      Nat.sub_self]
    rfl
  · have settle : (if c.getLsbD 7 then 164 else 159) = (eventsToUnselect c d answer).length - 1 := by
      rw [eventsToUnselect_length]; split <;> rfl
    have last : (eventsToUnselect c d answer).getLast? = some .delay := List.getLast?_concat
    rw [transferEvents_eq, List.getElem?_append_left (by rw [eventsToUnselect_length]; split <;> decide), settle,
      ← List.getLast?_eq_getElem?, last]

/-! ### The end of an accepted request (R91, R114, R140) -/

/-- A request in progress that meets the invariant has a primitive to come, and at most 171. -/
theorem State.inv.standsBefore {s : State} {job : Job} (inv : s.inv) (mode : s.mode = .busy job)
    (calls : waits s.inbox = true) :
    ∃ sl later, s.StandsBefore job (sl :: later) ∧ later.length + 1 ≤ 171 := by
  obtain ⟨-, -, sound⟩ := inv
  rw [mode] at sound
  obtain ⟨k, seq, inside, operands⟩ : ∃ k, s.txn.seq = .holds k ∧ k < (jobSlots job s).length ∧
      (job = .transfer → ∃ c d read,
        s.txn.txCmd = .holds c ∧ s.txn.txData = .holds d ∧ s.txn.directionRead = .holds read) := by
    cases job with
    | init =>
      obtain ⟨k, txn, inside, -⟩ := sound
      exact ⟨k, by rw [txn], inside, fun transfer => Job.noConfusion transfer⟩
    | transfer =>
      obtain ⟨c, d, k, hc, hd, hr, seq, inside, -⟩ := sound
      exact ⟨k, seq, by rwa [jobSlots_transfer hc hd hr, transferSlots_length], fun _ => ⟨c, d, _, hc, hd, hr⟩⟩
  obtain ⟨-, bound⟩ := jobSlots_length_bounds job s
  refine ⟨_, _, ⟨mode, calls, operands, k, seq, List.drop_eq_getElem_cons inside⟩, ?_⟩
  rw [List.length_drop]
  omega

/-- A request whose list has run out, failed or got stuck is no longer in progress, or the machine has stopped. -/
theorem requestOutcome_ends (job : Job) (slots : List Slot) (s : State) :
    (∃ t : State, (runSlots slots s).requestOutcome job = .next t ∧ t.isBusy = false) ∨
      ∃ f, (runSlots slots s).requestOutcome job = .fault f := by
  rcases runSlots_cases slots s with ⟨-, done⟩ | ⟨k, hk, -, failed⟩ | ⟨f, stuck⟩
  · exact .inl ⟨_, by rw [done, LeafResult.requestOutcome], rfl⟩
  · exact .inl ⟨_, by rw [failed, LeafResult.requestOutcome], rfl⟩
  · exact .inr ⟨f, by rw [stuck, LeafResult.requestOutcome]⟩

/-- Settles O53: the steps come to what running the primitives left comes to, and that ends the request. -/
theorem acceptedRequestEnds : Obligations.AcceptedRequestEnds := by
  unfold Obligations.AcceptedRequestEnds
  intro s inv busy calls
  obtain ⟨job, mode⟩ := (State.isBusy_iff s).mp busy
  obtain ⟨sl, later, stands, bound⟩ := inv.standsBefore mode calls
  obtain ⟨n, -, few, ⟨run, -⟩, -⟩ := stands.comesTo
  refine ⟨n, by omega, ?_⟩
  rw [run]
  rcases requestOutcome_ends job (sl :: later) s with ⟨t, ended, free⟩ | ⟨⟨prim, line⟩, stopped⟩
  · rw [ended]
    exact free
  · rw [stopped]
    trivial

end Sys2Proof.Machine
end

section
/-!
PROOFS. The segment guard of TRANSFER_SEGMENTS (43_multi_segment.md R93, R94).
-/

namespace Sys2Proof.Machine

/-- In every mode a TRANSFER_SEGMENTS of other than one segment is NOP.S. -/
theorem exec_transferSegments_of_length_ne {segs : List (List HostWord)} (h : segs.length ≠ 1) (s : State) :
    exec (.transferSegments segs) s = exec (.nopS segs) s := by
  show execTransferSegments segs s = execNopS segs s
  unfold execTransferSegments
  split
  · exact absurd rfl h
  · rfl

/-- Outside mode `Busy` NOP.S answers the caller's segments. -/
theorem exec_nopS_free {s : State} (free : s.isBusy = false) (segs : List (List HostWord)) :
    exec (.nopS segs) s = .next { s with responses := s.responses ++ [.ignoredSegments segs] } := by
  show ignoreCall (.ignoredSegments segs) s = _
  simp [ignoreCall, free]

/-- In mode `Busy` NOP.S is refused. -/
theorem exec_nopS_busy {s : State} (busy : s.isBusy = true) (segs : List (List HostWord)) :
    exec (.nopS segs) s = .refused .requestWhileBusy := by
  show ignoreCall (.ignoredSegments segs) s = _
  simp [ignoreCall, busy]

/-- Settles O42: the segment guard, then NOP.S in and outside mode `Busy`. -/
theorem misshapenSegmentsAreIgnored : Obligations.MisshapenSegmentsAreIgnored := by
  unfold Obligations.MisshapenSegmentsAreIgnored
  intro segs s shape
  exact ⟨exec_transferSegments_of_length_ne shape s, fun free => exec_nopS_free free segs,
    fun busy => exec_nopS_busy busy segs⟩

/-- Settles O45: in mode `Busy` the TRANSFER of one segment is refused, and so is the NOP.S of any other count. -/
theorem segmentsAddNothing : Obligations.SegmentsAddNothing := by
  unfold Obligations.SegmentsAddNothing
  intro segs s
  refine ⟨fun busy => ?_, ?_, fun shape => exec_transferSegments_of_length_ne shape s⟩
  · by_cases single : segs.length = 1
    · obtain ⟨words, rfl⟩ := List.length_eq_one_iff.mp single
      rw [exec_transferSegments_single]
      exact (transferGuardsInOrder words s).1 busy
    · rw [exec_transferSegments_of_length_ne single, exec_nopS_busy busy]
  · rintro words rfl
    exact exec_transferSegments_single words s

end Sys2Proof.Machine
end

section
/-!
PROOFS. Leaf failures and refusals (60_exceptions.md R97, R104, R114, R115): the state that a failing primitive leaves,
the requests that have no meaning, and every way a step can stop.
-/

namespace Sys2Proof.Machine

/-! ### The requests without meaning (R115) -/

/-- The decode tree gives a TRANSFER_SEGMENTS of one segment the meaning of the TRANSFER of it (R93, R95). -/
theorem decode_transferSegments_single (words : List HostWord) :
    decode (.transferSegments [words]) = decode (.transfer words) := rfl

/-- Settles O46: every request in mode `Busy`, and the guards of TRANSFER on two words. -/
theorem requestsWithoutMeaningAreRefused : Obligations.RequestsWithoutMeaningAreRefused := by
  unfold Obligations.RequestsWithoutMeaningAreRefused
  refine ⟨fun q s busy => ?_, fun w0 w1 s uninit => ?_, fun w0 w1 s faulted => ?_⟩
  · obtain ⟨job, mode⟩ := (State.isBusy_iff s).mp busy
    exact exec_decode_busy q mode
  all_goals
    obtain ⟨-, -, beforeInit, afterFault, -⟩ := transferGuardsInOrder [w0, w1] s
    rw [decode_transferSegments_single, and_self, ← exec_transfer_eq_exec_decode]
  · exact beforeInit w0 w1 rfl uninit
  · exact afterFault w0 w1 rfl faulted

/-! ### The state that a leaf failure leaves (R97, R104) -/

/-- The events of the first entries of a list are the first events of the list. -/
theorem slotEvents_take (slots : List Slot) (answer : Nat → Level) (k : Nat) :
    slotEvents (slots.take k) answer = (slotEvents slots answer).take k := by
  induction slots generalizing answer k with
  | nil => simp [slotEvents]
  | cons sl rest ih =>
    cases k with
    | zero => rfl
    | succ k => simp only [List.take_succ_cons, slotEvents, ih]

/-- A list uses up one answer of the environment for each of its events that is a sample. -/
theorem slotEvents_countP_isSample (slots : List Slot) (answer : Nat → Level) :
    (slotEvents slots answer).countP Event.isSample = slotSamples slots := by
  induction slots generalizing answer with
  | nil => rfl
  | cons sl rest ih =>
    have same : (sl.leaf.event (answer 0)).isSample = sl.leaf.isSample := by cases sl.leaf <;> rfl
    rw [slotEvents, List.countP_cons, ih, same, slotSamples, Nat.add_comm]

/-- The fast-mode flags that a list leaves can be read off its events (R17). -/
theorem cfgAfter_slotEvents (slots : List Slot) (answer : Nat → Level) (r : LineRegs) :
    cfgAfter (slotEvents slots answer) r.cfg = (linesAfter slots r).cfg := by
  induction slots generalizing answer r with
  | nil => rfl
  | cons sl rest ih =>
    rw [linesAfter_cons, ← ih fun k => answer (if sl.leaf.isSample then k + 1 else k), slotEvents]
    cases sl.leaf <;> rfl

/-- The event that a primitive would have recorded names the primitive and its line, whatever level it samples. -/
theorem Prim.event_failure (p : Prim) (v : Level) : (p.event v).failure = ⟨p.name, p.line⟩ := by
  cases p <;> rfl

/-- Entry by entry, the events of a list name its primitives and their lines. -/
theorem slotEvents_map_failure (slots : List Slot) (answer : Nat → Level) :
    (slotEvents slots answer).map Event.failure = slots.map fun sl => ⟨sl.leaf.name, sl.leaf.line⟩ := by
  induction slots generalizing answer with
  | nil => rfl
  | cons sl rest ih => rw [slotEvents, List.map_cons, List.map_cons, Prim.event_failure, ih]

/-- The fault entry after the first entries of a list, in the terms of Safety.lean (R104). -/
theorem takeLeafFault_afterSlots (slots : List Slot) (p : Prim) (e : Event) (s : State)
    (names : e.failure = ⟨p.name, p.line⟩) :
    takeLeafFault p (afterSlots slots s).leafTried = s.afterFault (slotEvents slots s.sampleLevel) e := by
  apply State.ext_fields
  case h2 => simp [afterSlots, State.afterFault, LineRegs.forget, cfgAfter_slotEvents]
  case h5 => simp [afterSlots, State.afterFault, names]
  all_goals simp [afterSlots, State.afterFault, State.used, slotEvents_countP_isSample, Nat.add_assoc]

/-- A list of primitives that the platform fails where the event `e` would stand. -/
theorem runSlots_fails_afterFault {slots : List Slot} {s : State} {k : Nat} {e : Event}
    (here : (slotEvents slots s.sampleLevel)[k]? = some e) (fails : s.platformFailsAt k) :
    runSlots slots s = .failed (s.afterFault ((slotEvents slots s.sampleLevel).take k) e) := by
  have inside : k < slots.length := by
    rw [← slotEvents_length slots s.sampleLevel]
    exact (List.getElem?_eq_some_iff.mp here).1
  have names : e.failure = ⟨slots[k].leaf.name, slots[k].leaf.line⟩ := by
    have entry := congrArg (·[k]?) (slotEvents_map_failure slots s.sampleLevel)
    simpa only [List.getElem?_map, here, List.getElem?_eq_getElem inside, Option.map_some, Option.some.injEq]
      using entry
  rw [runSlots_fails inside fails, takeLeafFault_afterSlots _ _ e s names, slotEvents_take]

/-- Settles O47: INIT and a transaction run their list from the state in which they are admitted, which differs from
the state before only in fields that the fault entry overwrites. -/
theorem leafFailureIsPrecise : Obligations.LeafFailureIsPrecise := by
  unfold Obligations.LeafFailureIsPrecise
  rintro i s k e (⟨rfl, free⟩ | ⟨ready, read, r, a, v, rfl⟩) here fails
  · show runRequest .init (admitInit s) = _
    rw [admitInit_free free]
    have failed := runSlots_fails_afterFault (slots := initSlots)
      (s := { s with mode := .busy .init, txn := { TxnRegs.unspec with seq := .holds 0 } }) here fails
    exact congrArg (LeafResult.requestOutcome .init) failed
  · rw [requestEvents_xfer, ← transferSlots_events] at here ⊢
    rw [exec_xfer, admitFrame_ready ready]
    have failed := runSlots_fails_afterFault (s := s.admitted (commandWord r read a) v) here fails
    exact congrArg (LeafResult.requestOutcome .transfer) failed

/-- A micro-operation or sub-protocol whose first primitive the platform fails. -/
theorem outcome_runSlots_fails {slots : List Slot} {s : State} {e : Event} (fails : s.platformFailsAt 0)
    (first : (slotEvents slots s.sampleLevel).head? = some e) :
    (runSlots slots s).outcome = .next (s.afterFault [] e) := by
  rw [List.head?_eq_getElem?] at first
  rw [runSlots_fails_afterFault first fails, LeafResult.outcome, List.take_zero]

/-- Settles O48: the first event of each operation's list. -/
theorem microOperationFaults : Obligations.MicroOperationFaults := by
  unfold Obligations.MicroOperationFaults
  intro i s e fails listed
  simp only [List.mem_cons, Prod.mk.injEq, List.not_mem_nil, or_false] at listed
  obtain ⟨rfl, rfl⟩ | ⟨rfl, rfl⟩ | ⟨rfl, rfl⟩ | ⟨rfl, rfl⟩ | ⟨rfl, rfl⟩ | ⟨rfl, rfl⟩ | ⟨rfl, rfl⟩ | ⟨rfl, rfl⟩ |
    ⟨rfl, rfl⟩ | ⟨rfl, rfl⟩ | ⟨rfl, rfl⟩ := listed
  · exact outcome_runSlots_fails (slots := settleSlots) fails rfl
  · exact outcome_runSlots_fails (slots := clockPulseSlots) fails rfl
  · exact outcome_runSlots_fails (slots := dataInSlots none) fails rfl
  · exact outcome_runSlots_fails (slots := selectSlots) fails rfl
  · exact outcome_runSlots_fails (slots := unselectSlots) fails rfl
  · exact outcome_runSlots_fails (slots := dirInSlots) fails rfl
  · exact outcome_runSlots_fails (slots := dirOutSlots) fails rfl
  · exact outcome_runSlots_fails (slots := dataOutSlots false) fails rfl
  · exact outcome_runSlots_fails (slots := dataOutSlots true) fails rfl
  · exact outcome_runSlots_fails (slots := exchangeBitSlots none false) fails rfl
  · exact outcome_runSlots_fails (slots := exchangeBitSlots none true) fails rfl

/-! ### Every way a step can stop (R114, R115) -/

/-- The refusals of R115, each with the mode it belongs to. -/
def State.mayRefuse (s : State) (r : Refusal) : Prop :=
  (r = .requestWhileBusy ∧ s.isBusy = true) ∨ (r = .transferBeforeInit ∧ s.mode = .uninit) ∨
    (r = .transferAfterFault ∧ s.mode = .faulted)

/-- A transaction is refused only in the modes of R115. -/
theorem admitFrame_error {c : CmdWord} {d : DataWord} {s : State} {r : Refusal} (h : admitFrame c d s = .error r) :
    s.mayRefuse r := by
  unfold admitFrame at h
  split at h <;> cases h
  · next job mode => exact .inl ⟨rfl, State.isBusy_busy s job mode⟩
  · next mode => exact .inr (.inl ⟨rfl, mode⟩)
  · next mode => exact .inr (.inr ⟨rfl, mode⟩)

/-- A transaction that does not begin is refused. -/
theorem exec_xfer_unbegun {read : Bool} {r : BitVec 1} {a : RegAddr} {v : DataWord} {s : State}
    (h : begins (xfer read r a v) s = none) :
    ∃ refusal, exec (xfer read r a v) s = .refused refusal ∧ s.mayRefuse refusal := by
  have unadmitted : (admitFrame (commandWord r read a) v s).toOption = none := by cases read <;> exact h
  cases adm : admitFrame (commandWord r read a) v s with
  | ok t => rw [adm] at unadmitted; cases unadmitted
  | error refusal => exact ⟨refusal, by rw [exec_xfer, adm, runRequest], admitFrame_error adm⟩

/-- Outside mode `Busy` a request that does not begin is a no-op, which is answered, or a refused transaction. -/
theorem exec_unbegun {q : Request} {s : State} (free : s.isBusy = false) (h : begins (decode q) s = none) :
    (∃ t, exec (decode q) s = .next t) ∨ ∃ r, exec (decode q) s = .refused r ∧ s.mayRefuse r := by
  rcases decode_cases q with e | ⟨r, a, v, e⟩ | ⟨r, a, v, e⟩ | ⟨words, e⟩ | ⟨segs, e⟩ <;> rw [e] at h ⊢
  · have begun : begins .init s = some _ := congrArg Except.toOption (admitInit_free free)
    rw [begun] at h
    cases h
  · exact .inr (exec_xfer_unbegun (read := false) h)
  · exact .inr (exec_xfer_unbegun (read := true) h)
  · exact .inl ⟨_, exec_nopT_free free words⟩
  · exact .inl ⟨_, exec_nopS_free free segs⟩

/-- A step of the sequencer refuses nothing, and stops only at a primitive that never returns. -/
theorem tick_answers (job : Job) (s : State) :
    (∃ t, tick job s = .next t) ∨ ∃ f, tick job s = .fault f ∧ s.leafAnswer 0 = .hangs := by
  unfold tick
  dsimp only
  split
  · exact .inl ⟨_, rfl⟩
  · next sl _ =>
    rcases perform_cases sl s with ⟨-, p⟩ | ⟨-, p⟩ | ⟨hangs, p⟩ <;> rw [p]
    · exact .inl ⟨_, rfl⟩
    · exact .inl ⟨_, rfl⟩
    · exact .inr ⟨_, rfl, hangs⟩

/-- Every answer of a step: a next state, a primitive of the request in progress that never returns, or a request
without meaning. -/
theorem step_answers (s : State) :
    (∃ t, step s = .next t) ∨ (∃ f, step s = .fault f ∧ s.isBusy = true ∧ s.leafAnswer 0 = .hangs) ∨
      ∃ r, step s = .refused r ∧ s.mayRefuse r := by
  cases busy : s.isBusy with
  | true =>
    obtain ⟨job, mode⟩ := (State.isBusy_iff s).mp busy
    rcases calls : s.inbox with _ | ⟨⟨q, _ | _⟩, rest⟩
    case cons.overlapping =>
      rw [step_overlapping mode calls, exec_decode_busy q (s := { s with inbox := rest }) mode]
      exact .inr (.inr ⟨_, rfl, .inl ⟨rfl, busy⟩⟩)
    all_goals
      rw [step_busy mode (by rw [calls]; rfl)]
      rcases tick_answers job s with ⟨t, next⟩ | ⟨f, stuck, hangs⟩
      · exact .inl ⟨t, next⟩
      · exact .inr (.inl ⟨f, stuck, rfl, hangs⟩)
  | false =>
    rcases calls : s.inbox with _ | ⟨c, rest⟩
    · exact .inl ⟨s, step_idle busy calls⟩
    · rw [step_call busy calls]
      cases begun : begins (decode c.request) { s with inbox := rest } with
      | some t => exact .inl ⟨t, rfl⟩
      | none =>
        rcases exec_unbegun (s := { s with inbox := rest }) busy begun with answered | refused
        · exact .inl answered
        · exact .inr (.inr refused)

/-- Settles O49: a fault and a refusal are each one of the answers of a step. -/
theorem stepStopsOnlyAsSpecified : Obligations.StepStopsOnlyAsSpecified := by
  unfold Obligations.StepStopsOnlyAsSpecified
  intro s
  rcases step_answers s with ⟨t, next⟩ | ⟨f, stuck, busy, hangs⟩ | ⟨r, refused, reason⟩
  · exact ⟨fun f h => by simp [next] at h, fun r h => by simp [next] at h⟩
  · exact ⟨fun _ _ => ⟨busy, hangs⟩, fun r h => by simp [stuck] at h⟩
  · refine ⟨fun f h => by simp [refused] at h, fun r' h => ?_⟩
    rw [refused] at h
    cases h
    exact reason

end Sys2Proof.Machine
end
